-- ==== Sys2Proof/Word.lean ====
section
/-! DEFINITION. The widths of spec/00_scope.md rule R5: a register, a memory cell and a timer are 8 bits, an instruction word, `I`,
`pc` and a stack slot are 16, an address operand is 12, a register number and a key index are one of sixteen. -/

namespace Sys2Proof

/-- XLEN = 8: a general register, a memory cell, a timer (R5). -/
abbrev Byte := BitVec 8

/-- ILEN = 16: `I`, `pc`, a stack slot, an instruction word (R5). -/
abbrev Word := BitVec 16

/-- The 12-bit address operand `nnn` (R92). -/
abbrev Addr := BitVec 12

/-- A register number 0..15 (R20): a 4-bit field cannot name another (R22). -/
abbrev Reg := Fin 16

/-- A key index 0..15 (R32, U9). -/
abbrev Key := Fin 16

end Sys2Proof
end

