-- ==== Sys2Proof/Syntax.lean ====
section
/-! DEFINITION. The 34 instructions of spec/30_encoding.md rule R96, one constructor per row of spec/opcode_table.json, in the table's
order. Every operand has the width of its field (R92), so every term is an instruction of the machine. -/

namespace Sys2Proof

/-- The instructions. `x`, `y` are register numbers, `kk` a byte, `nnn` an address, `n` a row count (R94). -/
inductive Instr where
  /-- `00E0`, CLS (R200). -/
  | cls
  /-- `00EE`, RET (R150). -/
  | ret
  /-- `1nnn`, JP nnn (R151). -/
  | jp (nnn : Addr)
  /-- `2nnn`, CALL nnn (R152). -/
  | call (nnn : Addr)
  /-- `3xkk`, SE Vx, kk (R160). -/
  | seImm (x : Reg) (kk : Byte)
  /-- `4xkk`, SNE Vx, kk (R161). -/
  | sneImm (x : Reg) (kk : Byte)
  /-- `5xy0`, SE Vx, Vy (R162). -/
  | seReg (x y : Reg)
  /-- `6xkk`, LD Vx, kk (R170). -/
  | ldImm (x : Reg) (kk : Byte)
  /-- `7xkk`, ADD Vx, kk (R171). -/
  | addImm (x : Reg) (kk : Byte)
  /-- `8xy0`, LD Vx, Vy (R180). -/
  | ldReg (x y : Reg)
  /-- `8xy1`, OR Vx, Vy (R181). -/
  | orReg (x y : Reg)
  /-- `8xy2`, AND Vx, Vy (R182). -/
  | andReg (x y : Reg)
  /-- `8xy3`, XOR Vx, Vy (R183). -/
  | xorReg (x y : Reg)
  /-- `8xy4`, ADD Vx, Vy (R184). -/
  | addReg (x y : Reg)
  /-- `8xy5`, SUB Vx, Vy (R185). -/
  | sub (x y : Reg)
  /-- `8xy6`, SHR Vx (R186); `y` is encoded and not used (R99). -/
  | shr (x y : Reg)
  /-- `8xy7`, SUBN Vx, Vy (R187). -/
  | subn (x y : Reg)
  /-- `8xyE`, SHL Vx (R188); `y` is encoded and not used (R99). -/
  | shl (x y : Reg)
  /-- `9xy0`, SNE Vx, Vy (R163). -/
  | sneReg (x y : Reg)
  /-- `Annn`, LD I, nnn (R172). -/
  | ldI (nnn : Addr)
  /-- `Bnnn`, JP V0, nnn (R153). -/
  | jpV0 (nnn : Addr)
  /-- `Cxkk`, RND Vx, kk (R173). -/
  | rnd (x : Reg) (kk : Byte)
  /-- `Dxyn`, DRW Vx, Vy, n (R201). -/
  | drw (x y : Reg) (n : Fin 16)
  /-- `Ex9E`, SKP Vx (R210). -/
  | skp (x : Reg)
  /-- `ExA1`, SKNP Vx (R211). -/
  | sknp (x : Reg)
  /-- `Fx07`, LD Vx, DT (R220). -/
  | ldVxDT (x : Reg)
  /-- `Fx0A`, LD Vx, K (R212). -/
  | ldVxK (x : Reg)
  /-- `Fx15`, LD DT, Vx (R221). -/
  | ldDTVx (x : Reg)
  /-- `Fx18`, LD ST, Vx (R222). -/
  | ldSTVx (x : Reg)
  /-- `Fx1E`, ADD I, Vx (R230). -/
  | addI (x : Reg)
  /-- `Fx29`, LD F, Vx (R231). -/
  | ldF (x : Reg)
  /-- `Fx33`, LD B, Vx (R232). -/
  | ldB (x : Reg)
  /-- `Fx55`, LD [I], Vx (R233). -/
  | ldMemVx (x : Reg)
  /-- `Fx65`, LD Vx, [I] (R234). -/
  | ldVxMem (x : Reg)
  deriving DecidableEq, Repr

end Sys2Proof
end

