-- ==== Sys2Proof/Decode.lean ====
section
/-! DEFINITION. Decoding (spec/30_encoding.md rules R91, R92, R95-R98) as the opcode table of rule R96, one row a mask, a match
and the instruction built from the fields; then the encoder, written from the format tables of rule R93. -/

namespace Sys2Proof

/-! ## Fields (R92) -/

/-- The family nibble, `opcode[15:12]`. -/
def family (w : Word) : BitVec 4 := w.extractLsb' 12 4

/-- `nnn`, `opcode[11:0]`. -/
def fieldNNN (w : Word) : Addr := w.extractLsb' 0 12

/-- `x`, `opcode[11:8]`. -/
def fieldX (w : Word) : Reg := (w.extractLsb' 8 4).toFin

/-- `y`, `opcode[7:4]`. -/
def fieldY (w : Word) : Reg := (w.extractLsb' 4 4).toFin

/-- `kk`, `opcode[7:0]`; also the low byte that families 0, E and F use as sub-opcode. -/
def fieldKK (w : Word) : Byte := w.extractLsb' 0 8

/-- `n`, `opcode[3:0]`. -/
def fieldN (w : Word) : Fin 16 := (w.extractLsb' 0 4).toFin

/-- The sub-opcode nibble of families 5, 8 and 9, `opcode[3:0]`. -/
def subNibble (w : Word) : BitVec 4 := w.extractLsb' 0 4

/-! ## The opcode map (R96) -/

/-- One row of the opcode map: a word `w` is this row's when `w &&& mask = pat`, and `build w` is the instruction with the operands in `w`. -/
structure OpcodeRow where
  mask : Word
  pat : Word
  build : Word → Instr

/-- Rows 1 to 9 of R96. -/
def opcodeRows1 : List OpcodeRow :=
  [ ⟨0xFFFF, 0x00E0, fun _ => .cls⟩,
    ⟨0xFFFF, 0x00EE, fun _ => .ret⟩,
    ⟨0xF000, 0x1000, fun w => .jp (fieldNNN w)⟩,
    ⟨0xF000, 0x2000, fun w => .call (fieldNNN w)⟩,
    ⟨0xF000, 0x3000, fun w => .seImm (fieldX w) (fieldKK w)⟩,
    ⟨0xF000, 0x4000, fun w => .sneImm (fieldX w) (fieldKK w)⟩,
    ⟨0xF00F, 0x5000, fun w => .seReg (fieldX w) (fieldY w)⟩,
    ⟨0xF000, 0x6000, fun w => .ldImm (fieldX w) (fieldKK w)⟩,
    ⟨0xF000, 0x7000, fun w => .addImm (fieldX w) (fieldKK w)⟩ ]

/-- Rows 10 to 18 of R96. -/
def opcodeRows2 : List OpcodeRow :=
  [ ⟨0xF00F, 0x8000, fun w => .ldReg (fieldX w) (fieldY w)⟩,
    ⟨0xF00F, 0x8001, fun w => .orReg (fieldX w) (fieldY w)⟩,
    ⟨0xF00F, 0x8002, fun w => .andReg (fieldX w) (fieldY w)⟩,
    ⟨0xF00F, 0x8003, fun w => .xorReg (fieldX w) (fieldY w)⟩,
    ⟨0xF00F, 0x8004, fun w => .addReg (fieldX w) (fieldY w)⟩,
    ⟨0xF00F, 0x8005, fun w => .sub (fieldX w) (fieldY w)⟩,
    ⟨0xF00F, 0x8006, fun w => .shr (fieldX w) (fieldY w)⟩,
    ⟨0xF00F, 0x8007, fun w => .subn (fieldX w) (fieldY w)⟩,
    ⟨0xF00F, 0x800E, fun w => .shl (fieldX w) (fieldY w)⟩ ]

/-- Rows 19 to 25 of R96. -/
def opcodeRows3 : List OpcodeRow :=
  [ ⟨0xF00F, 0x9000, fun w => .sneReg (fieldX w) (fieldY w)⟩,
    ⟨0xF000, 0xA000, fun w => .ldI (fieldNNN w)⟩,
    ⟨0xF000, 0xB000, fun w => .jpV0 (fieldNNN w)⟩,
    ⟨0xF000, 0xC000, fun w => .rnd (fieldX w) (fieldKK w)⟩,
    ⟨0xF000, 0xD000, fun w => .drw (fieldX w) (fieldY w) (fieldN w)⟩,
    ⟨0xF0FF, 0xE09E, fun w => .skp (fieldX w)⟩,
    ⟨0xF0FF, 0xE0A1, fun w => .sknp (fieldX w)⟩ ]

/-- Rows 26 to 34 of R96. -/
def opcodeRows4 : List OpcodeRow :=
  [ ⟨0xF0FF, 0xF007, fun w => .ldVxDT (fieldX w)⟩,
    ⟨0xF0FF, 0xF00A, fun w => .ldVxK (fieldX w)⟩,
    ⟨0xF0FF, 0xF015, fun w => .ldDTVx (fieldX w)⟩,
    ⟨0xF0FF, 0xF018, fun w => .ldSTVx (fieldX w)⟩,
    ⟨0xF0FF, 0xF01E, fun w => .addI (fieldX w)⟩,
    ⟨0xF0FF, 0xF029, fun w => .ldF (fieldX w)⟩,
    ⟨0xF0FF, 0xF033, fun w => .ldB (fieldX w)⟩,
    ⟨0xF0FF, 0xF055, fun w => .ldMemVx (fieldX w)⟩,
    ⟨0xF0FF, 0xF065, fun w => .ldVxMem (fieldX w)⟩ ]

/-- The complete opcode map, R96. -/
def opcodeTable : List OpcodeRow := opcodeRows1 ++ opcodeRows2 ++ opcodeRows3 ++ opcodeRows4

/-! ## The decoder (R95) -/

/-- The six groups of unmatched words, R97: each word no row matches lies in the group of its family. -/
inductive UnmatchedGroup where
  /-- `0nnn` other than `00E0` and `00EE`. -/
  | family0
  /-- `5xy1`-`5xyF`. -/
  | family5
  /-- `8xy8`-`8xyD`, `8xyF`. -/
  | family8
  /-- `9xy1`-`9xyF`. -/
  | family9
  /-- `Exkk` with a low byte other than 0x9E and 0xA1. -/
  | familyE
  /-- `Fxkk` with a low byte outside the nine of R96. -/
  | familyF
  deriving DecidableEq, Repr

/-- The verdict on a word: the instruction it is, or `unmatched` with its group (R95). -/
inductive Decoded where
  | instr (i : Instr)
  | unmatched (g : UnmatchedGroup)
  deriving DecidableEq, Repr

/-- The group of a word that no row of R96 matches, by its family; families other than 0, 5, 8, 9 and E that reach here are F (R97). -/
def unmatchedGroup (w : Word) : UnmatchedGroup :=
  if family w = 0x0 then .family0
  else if family w = 0x5 then .family5
  else if family w = 0x8 then .family8
  else if family w = 0x9 then .family9
  else if family w = 0xE then .familyE
  else .familyF

/-- Decoding, total on the 65536 words: the row whose mask and match fit, else unmatched (R95, R97). -/
def decode (w : Word) : Decoded :=
  match opcodeTable.find? (fun r => w &&& r.mask == r.pat) with
  | some r => .instr (r.build w)
  | none => .unmatched (unmatchedGroup w)

/-- The instruction word of two consecutive bytes, the lower address first: big-endian (R62, R91). -/
def wordOfBytes (hi lo : Byte) : Word := hi ++ lo

/-- The byte at the lower address of an instruction word, `opcode[15:8]` (R62). -/
def highByte (w : Word) : Byte := w.extractLsb' 8 8

/-- The byte at the higher address of an instruction word, `opcode[7:0]` (R62). -/
def lowByte (w : Word) : Byte := w.extractLsb' 0 8

/-- The verdict on a run of bytes: an instruction is exactly two of them (R90). -/
inductive BytesDecoded where
  | instr (i : Instr)
  | unmatched (g : UnmatchedGroup)
  | tooFewBytes
  deriving DecidableEq, Repr

/-- Decoding from bytes in memory order, total on any bytes. -/
def decodeBytes : List Byte → BytesDecoded
  | hi :: lo :: _ =>
    match decode (wordOfBytes hi lo) with
    | .instr i => .instr i
    | .unmatched g => .unmatched g
  | _ => .tooFewBytes

/-- The host's question: the instruction the decoder reads from a word numbered as spec/opcode_table.json numbers it. An instruction is
one 16-bit word (R90), laid out high byte first (R62); bits above `nbits` are zero. -/
def decodeTableWord (nbits w : Nat) : Option Instr :=
  let word : Word := BitVec.ofNat 16 (w % 2 ^ nbits)
  match decodeBytes [highByte word, lowByte word] with
  | .instr i => some i
  | .unmatched _ => none
  | .tooFewBytes => none

/-! ## The encoder (R93) -/

/-- Format A: family, `nnn`. -/
def formatA (f : BitVec 4) (nnn : Addr) : Word := f ++ nnn

/-- Format XK: family, `x`, `kk`; also format XS, whose low byte is the sub-opcode. -/
def formatXK (f : BitVec 4) (x : Reg) (kk : Byte) : Word := f ++ (BitVec.ofFin (w := 4) x ++ kk)

/-- Format XYN: family, `x`, `y`, `n`; also format XY, whose low nibble is the sub-opcode. -/
def formatXYN (f : BitVec 4) (x y : Reg) (n : BitVec 4) : Word :=
  f ++ (BitVec.ofFin (w := 4) x ++ (BitVec.ofFin (w := 4) y ++ n))

/-- The word of an instruction, from the formats of R93 and the patterns of R96. -/
def encode : Instr → Word
  | .cls => 0x00E0
  | .ret => 0x00EE
  | .jp nnn => formatA 0x1 nnn
  | .call nnn => formatA 0x2 nnn
  | .seImm x kk => formatXK 0x3 x kk
  | .sneImm x kk => formatXK 0x4 x kk
  | .seReg x y => formatXYN 0x5 x y 0x0
  | .ldImm x kk => formatXK 0x6 x kk
  | .addImm x kk => formatXK 0x7 x kk
  | .ldReg x y => formatXYN 0x8 x y 0x0
  | .orReg x y => formatXYN 0x8 x y 0x1
  | .andReg x y => formatXYN 0x8 x y 0x2
  | .xorReg x y => formatXYN 0x8 x y 0x3
  | .addReg x y => formatXYN 0x8 x y 0x4
  | .sub x y => formatXYN 0x8 x y 0x5
  | .shr x y => formatXYN 0x8 x y 0x6
  | .subn x y => formatXYN 0x8 x y 0x7
  | .shl x y => formatXYN 0x8 x y 0xE
  | .sneReg x y => formatXYN 0x9 x y 0x0
  | .ldI nnn => formatA 0xA nnn
  | .jpV0 nnn => formatA 0xB nnn
  | .rnd x kk => formatXK 0xC x kk
  | .drw x y n => formatXYN 0xD x y (BitVec.ofFin (w := 4) n)
  | .skp x => formatXK 0xE x 0x9E
  | .sknp x => formatXK 0xE x 0xA1
  | .ldVxDT x => formatXK 0xF x 0x07
  | .ldVxK x => formatXK 0xF x 0x0A
  | .ldDTVx x => formatXK 0xF x 0x15
  | .ldSTVx x => formatXK 0xF x 0x18
  | .addI x => formatXK 0xF x 0x1E
  | .ldF x => formatXK 0xF x 0x29
  | .ldB x => formatXK 0xF x 0x33
  | .ldMemVx x => formatXK 0xF x 0x55
  | .ldVxMem x => formatXK 0xF x 0x65

end Sys2Proof
end

