-- ==== Sys2Proof/Machine/Flags.lean ====
section
/-! DEFINITION. The flag computations: every value spec/10_state.md rule R41 says is written to VF, but for the draw's collision, which
Display.lean accumulates (R201). Operands are taken as unsigned integers (R189). -/

namespace Sys2Proof.Machine

/-- A flag as the value VF takes, 1 or 0. -/
def flagByte (b : Bool) : Byte := if b then 1 else 0

/-- `8xy4`: the sum exceeds 255 (R184). -/
def addCarry (a b : Byte) : Bool := decide (a.toNat + b.toNat > 255)

/-- `8xy5`, `8xy7`: no borrow in `a - b`, that is `a >= b` (R185, R187, R189(d)). -/
def noBorrow (a b : Byte) : Bool := decide (a.toNat ≥ b.toNat)

/-- `8xy6`: the bit a right shift moves out (R186). -/
def shrOut (a : Byte) : Bool := a.getLsbD 0

/-- `8xyE`: the bit a left shift moves out (R188). -/
def shlOut (a : Byte) : Bool := a.getLsbD 7

/-- `Fx1E` under FX1E_VF_OVERFLOW: the unbounded sum passes 0xFFF (R230). -/
def indexOverflow (i : Word) (a : Byte) : Bool := decide (i.toNat + a.toNat > 0x0FFF)

end Sys2Proof.Machine
end

