-- ==== Sys2Proof/Machine/Operands.lean ====
section
/-! DEFINITION. Operand forms: what an instruction makes of a field or a register value before it uses it. -/

namespace Sys2Proof.Machine

/-- VF = `V[15]` (R20, R21). -/
def vf : Reg := 15

/-- `V & 0x0F` as an index: the key of `Ex9E`/`ExA1` (R215) and the digit of `Fx29` (R231). -/
def lowNibble (b : Byte) : Fin 16 := ⟨b.toNat % 16, Nat.mod_lt _ (by decide)⟩

/-- A 12-bit address operand at the width of `pc` and `I`, zero-extended (R94). -/
def zextAddr (nnn : Addr) : Word := nnn.setWidth 16

/-- A register value at the width of `pc` and `I`, zero-extended (R94, R153). -/
def zextByte (b : Byte) : Word := b.setWidth 16

/-- A key index as a register value, zero-extended (R213). -/
def keyByte (k : Key) : Byte := BitVec.ofNat 8 k.val

/-- The decimal digits of a byte: hundreds, tens, ones (R232). -/
def bcdDigits (b : Byte) : List Byte :=
  [BitVec.ofNat 8 (b.toNat / 100), BitVec.ofNat 8 (b.toNat / 10 % 10), BitVec.ofNat 8 (b.toNat % 10)]

/-- The address of digit `d`'s sprite, FONT_BASE + 5 d (R78, R231). -/
def digitAddress (fontBase : Word) (d : Fin 16) : Word := fontBase + BitVec.ofNat 16 (5 * d.val)

/-- The framebuffer column of a horizontal coordinate: modulo 64 (R203). -/
def wrapCol (h : Nat) : Fin 64 := ⟨h % 64, Nat.mod_lt _ (by decide)⟩

/-- The framebuffer row of a vertical coordinate: modulo 32 (R203). -/
def wrapRow (h : Nat) : Fin 32 := ⟨h % 32, Nat.mod_lt _ (by decide)⟩

/-- The pixel at horizontal offset `c` of a sprite row: bit `7 - c` (R202). -/
def spritePixel (b : Byte) (c : Nat) : Bool := b.getLsbD (7 - c)

end Sys2Proof.Machine
end

