-- ==== Sys2Proof/Config.lean ====
section
/-! DEFINITION. What an implementation fixes (spec/00_scope.md rule R6) and the one free input (rule R7). -/

namespace Sys2Proof

/-- The four open parameters of R6, constant for the life of the machine (R37(a)). -/
structure Config where
  /-- STRICT_OPCODES: an unmatched word halts the machine instead of being skipped (R301). -/
  strictOpcodes : Bool
  /-- FX1E_VF_OVERFLOW: `Fx1E` writes VF (R230). -/
  fx1eVfOverflow : Bool
  /-- FONT_BASE: the address of digit 0's sprite (R78). -/
  fontBase : Word
  /-- FONT: the 80 bytes of the digit sprite table (R79). -/
  font : Vector Byte 80
  deriving DecidableEq, Repr

/-- The byte `rnd` of the `k`-th `step` event whose caller the model does not hold: any value in [0,255], under no law (R7, D20).
A free value: no body, so nothing can be proved about it. -/
opaque Config.freeByte : Nat → Byte

end Sys2Proof
end

