-- ==== Sys2Proof/Machine/Font.lean ====
section
/-! DEFINITION. The default parameters of spec/00_scope.md rule R6 and the default digit sprite table of spec/20_memory.md rule R79. -/

namespace Sys2Proof

/-- The rows of digits 0 to 7 in the default table (R79). -/
def fontLow : List Byte :=
  [0xF0, 0x90, 0x90, 0x90, 0xF0,  0x20, 0x60, 0x20, 0x20, 0x70,
   0xF0, 0x10, 0xF0, 0x80, 0xF0,  0xF0, 0x10, 0xF0, 0x10, 0xF0,
   0x90, 0x90, 0xF0, 0x10, 0x10,  0xF0, 0x80, 0xF0, 0x10, 0xF0,
   0xF0, 0x80, 0xF0, 0x90, 0xF0,  0xF0, 0x10, 0x20, 0x40, 0x40]

/-- The rows of digits 8 to F in the default table (R79). -/
def fontHigh : List Byte :=
  [0xF0, 0x90, 0xF0, 0x90, 0xF0,  0xF0, 0x90, 0xF0, 0x10, 0xF0,
   0xF0, 0x90, 0xF0, 0x90, 0x90,  0xE0, 0x90, 0xE0, 0x90, 0xE0,
   0xF0, 0x80, 0x80, 0x80, 0xF0,  0xE0, 0x90, 0x90, 0x90, 0xE0,
   0xF0, 0x80, 0xF0, 0x80, 0xF0,  0xF0, 0x80, 0xF0, 0x80, 0x80]

/-- The default FONT: the customary table the spec takes from general knowledge (R79, G1; log entry 6). -/
def defaultFont : Vector Byte 80 := Vector.mk (fontLow ++ fontHigh).toArray (by decide)

/-- The defaults of R6: no strict mode, no flag from `Fx1E`, FONT_BASE = 0x000, FONT the table of R79. -/
def Config.default : Config :=
  { strictOpcodes := false, fx1eVfOverflow := false, fontBase := 0x000, font := defaultFont }

end Sys2Proof
end

