-- ==== Sys2Proof/Machine/State.lean ====
section
/-! DEFINITION. The state of the machine: the block's state as spec/10_state.md rule R36 lists it, field by field, and after it the
parameters, the outputs and the inputs that R37 keeps apart from the block's state. -/

namespace Sys2Proof.Machine

/-- The conditions the machine can report (R300). -/
inductive Condition where
  | unrecognizedOpcode
  | stackOverflow
  | stackUnderflow
  | memoryFault
  | romTooLarge
  | romUnreadable
  deriving DecidableEq, Repr

/-- A fault record `f` of R300: the kind with the fields its row lists. `pc` is the address of the faulting instruction. -/
inductive FaultRecord where
  /-- The fetched word is unmatched, under STRICT_OPCODES (R301). -/
  | unrecognizedOpcode (pc opcode : Word)
  /-- `2nnn` with `sp = 16` (R302). -/
  | stackOverflow (pc opcode : Word)
  /-- `00EE` with `sp = 0` (R303). -/
  | stackUnderflow (pc opcode : Word)
  /-- An access outside [0,4096); no opcode for a fetch; `addr` is the lowest out-of-range address (R304, R66). -/
  | memoryFault (pc : Word) (opcode : Option Word) (addr : Nat)
  deriving DecidableEq, Repr

/-- The execution mode (R34). -/
inductive Mode where
  /-- RUNNING. -/
  | running
  /-- AWAITING_KEY(t): `Fx0A` was dispatched with `x = t`. -/
  | awaitingKey (t : Reg)
  /-- HALTED(f): a fatal fault occurred. -/
  | halted (f : FaultRecord)
  deriving DecidableEq, Repr

/-- What a `step` or a `load_rom` returned (R125, R77). -/
inductive Result where
  /-- Nothing was returned since the last reset. -/
  | noResult
  /-- Ok. -/
  | ok
  /-- Waiting: `Fx0A` was dispatched, or the machine was already waiting. -/
  | waiting
  /-- Unrecognized(pc, opcode): an unmatched word was skipped. -/
  | unrecognized (pc opcode : Word)
  /-- Fault(f): a fatal fault was raised in this step. -/
  | fault (f : FaultRecord)
  /-- Halted(f): the machine was already halted. -/
  | halted (f : FaultRecord)
  /-- RomTooLarge, with the length refused. -/
  | romTooLarge (length : Nat)
  deriving DecidableEq, Repr

/-- The trace record of a dispatched word (R316). -/
structure TraceRecord where
  opcode : Word
  mnemonic : String
  deriving DecidableEq, Repr

/-- The six events that change the block's state (R120). -/
inductive Event where
  | reset
  | loadRom (rom : List Byte)
  | step (rnd : Byte)
  | tick
  | keyDown (k : Key)
  | keyUp (k : Key)
  deriving DecidableEq, Repr

/-- The framebuffer, `fb[r][c]` with row `r` in [0,31] and column `c` in [0,63] (R33). -/
abbrev Framebuffer := Vector (Vector Bool 64) 32

/-- The state. The fields to `mode` are the block's, exactly those of R36. -/
structure State where
  /-- V0 to VF (R20); `v[15]` is VF (R21). -/
  v : Vector Byte 16
  /-- The address register `I` (R23). -/
  iReg : Word
  /-- The program counter (R24). -/
  pc : Word
  /-- The number of occupied stack slots, 0..16 (R28). -/
  sp : Fin 17
  /-- The 16 stack slots (R27). -/
  stack : Vector Word 16
  /-- DT, the delay timer (R31). -/
  dt : Byte
  /-- ST, the sound timer (R31). -/
  st : Byte
  /-- The key states, true is down (R32). -/
  keys : Vector Bool 16
  /-- The framebuffer (R33). -/
  fb : Framebuffer
  /-- Memory (R35): the cells that differ from their reset contents, by rising address. -/
  mem : List Host.Cell
  /-- The execution mode (R34). -/
  mode : Mode
  /-- The parameters (R6), constant for the life of the machine (R37(a)). -/
  config : Config
  /-- Output: the result of the last `step` or `load_rom` (R37(d)). -/
  result : Result
  /-- Output: the trace record of the last `step` (R37(e)). -/
  trace : Option TraceRecord
  /-- History: `load_rom` has a meaning now (R77). -/
  romLoadable : Bool
  /-- Input: the free byte supplied with the step in progress (R7, R37(b)). -/
  rnd : Byte
  /-- How many free bytes were drawn for steps the queue did not supply. -/
  draws : Nat
  /-- The events still to come, oldest first (R120, R121). -/
  inputs : List Event
  deriving DecidableEq, Repr

/-- No step ends in the host's fault outcome: each of the machine's fatal faults is an entry into HALTED, which the spec describes and the
machine survives (R308, R124, R350), so it is a next state. The type has no constructor. Safe: nothing is left out (log entry 1). -/
inductive Fault where
  deriving DecidableEq, Repr

/-- What the spec gives no meaning to. -/
inductive Refusal where
  /-- Raised by exec for an instruction without a meaning yet. Safe: the machine stops where the hardware goes on. -/
  | notModelled (mnemonic : String)
  /-- Raised by the `load_rom` event after a step or after an earlier load since the last reset: the spec gives it no meaning and asks
  for a refusal (R77, U21). Safe: the machine stops. -/
  | loadRomOutOfOrder
  deriving DecidableEq, Repr

/-- The state after the `reset` event with the parameters `c` (R39, R350): everything zero, `pc` at 0x200, the font in place (memory at its
reset contents lists nothing), RUNNING, and `load_rom` admitted. -/
def State.resetWith (c : Config) : State :=
  { v := Vector.replicate 16 0x00
    iReg := 0x0000
    pc := 0x0200
    sp := 0
    stack := Vector.replicate 16 0x0000
    dt := 0x00
    st := 0x00
    keys := Vector.replicate 16 false
    fb := Vector.replicate 32 (Vector.replicate 64 false)
    mem := []
    mode := .running
    config := c
    result := .noResult
    trace := none
    romLoadable := true
    rnd := 0x00
    draws := 0
    inputs := [] }

/-- The machine right after reset, with the default parameters of R6 and no event queued. -/
def State.reset : State := State.resetWith Config.default

end Sys2Proof.Machine
end

