-- ==== Sys2Proof/WellFormed.lean ====
section
/-! DEFINITION. Which terms stand for something the spec describes. An instruction's operands have the widths of their fields
(spec/30_encoding.md rule R92, spec/10_state.md rule R22), so the types already refuse every ill-formed instruction and no check is left
for `Instr`; the checks are those on the parameters (spec/00_scope.md rule R6) and on a ROM (spec/20_memory.md rule R77). -/

namespace Sys2Proof

/-- FONT_BASE + 80 <= 0x200: the digit table lies in the reserved region (R6, R78). FONT has exactly 80 bytes by its type. -/
abbrev Config.WellFormed (c : Config) : Prop := c.fontBase.toNat + 80 ≤ 0x200

/-- A ROM fits between 0x200 and 0xFFF: at most 3584 bytes (R5 ROM_MAX, R77). -/
abbrev RomFits (rom : List Byte) : Prop := rom.length ≤ 3584

end Sys2Proof
end

