-- ==== Sys2Proof/Machine/Ops.lean ====
section
/-! DEFINITION. The operations over registers, memory, stack and mode that the instruction meanings share: the primitives of
spec/00_scope.md rule R9, the program-counter advances of spec/10_state.md rule R25, and the entry into HALTED of spec/60_exceptions.md rule R308. -/

namespace Sys2Proof.Machine

/-- The outcome of an instruction or an event. -/
abbrev StepOutcome := Host.Outcome State Fault Refusal

/-! ## Memory as a list of cells (R35, R60) -/

/-- The reset contents of an address, which is what an unlisted address reads as: FONT at FONT_BASE, 0x00 everywhere else (R39, R78). -/
def Memory.background (c : Config) (a : Nat) : Byte :=
  if h : c.fontBase.toNat ≤ a ∧ a < c.fontBase.toNat + 80 then c.font[a - c.fontBase.toNat]'(by omega) else 0x00

/-- The listed value of an address, if it is listed. -/
def Memory.lookup : List Host.Cell → Nat → Option Byte
  | [], _ => none
  | (b, w) :: m, a => if a = b then some w else Memory.lookup m a

/-- The byte at an address. -/
def Memory.peek (c : Config) (m : List Host.Cell) (a : Nat) : Byte :=
  (Memory.lookup m a).getD (Memory.background c a)

/-- List a value at an address, keeping the addresses rising. -/
def Memory.insert : List Host.Cell → Nat → Byte → List Host.Cell
  | [], a, x => [(a, x)]
  | (b, w) :: m, a, x =>
    if a < b then (a, x) :: (b, w) :: m
    else if a = b then (a, x) :: m
    else (b, w) :: Memory.insert m a x

/-- Take an address off the list. -/
def Memory.erase : List Host.Cell → Nat → List Host.Cell
  | [], _ => []
  | (b, w) :: m, a => if a = b then Memory.erase m a else (b, w) :: Memory.erase m a

/-- Store a byte, in the canonical form: a cell at its reset contents is not listed. -/
def Memory.poke (c : Config) (m : List Host.Cell) (a : Nat) (x : Byte) : List Host.Cell :=
  if x = Memory.background c a then Memory.erase m a else Memory.insert m a x

/-- Store bytes at ascending addresses (R63). -/
def Memory.pokeList (c : Config) (m : List Host.Cell) (a : Nat) : List Byte → List Host.Cell
  | [] => m
  | x :: xs => Memory.pokeList c (Memory.poke c m a x) (a + 1) xs

/-- The canonical form: addresses strictly rising, all below 4096 (R60), none listed at its reset contents. -/
abbrev Memory.wf (c : Config) (m : List Host.Cell) : Prop :=
  m.Pairwise (fun p q => p.1 < q.1) ∧ ∀ p ∈ m, p.1 < 4096 ∧ p.2 ≠ Memory.background c p.1

/-! ## Registers and memory of the state -/

/-- Read `V[x]` (R9, R20). -/
def State.getV (s : State) (x : Reg) : Byte := s.v[x]

/-- Write `V[x]` (R9, R20): every register is writable, VF too (R21). -/
def State.setV (s : State) (x : Reg) (b : Byte) : State := { s with v := s.v.set x.val b x.isLt }

/-- The flag first, then the result (R128): with `x = 15` VF ends as the result (R190). -/
def State.setFlagThenV (s : State) (flag : Bool) (x : Reg) (b : Byte) : State :=
  (s.setV vf (flagByte flag)).setV x b

/-- The byte of memory at an address (R70). -/
def State.byte (s : State) (a : Nat) : Byte := Memory.peek s.config s.mem a

/-- The `count` bytes of memory at ascending addresses from `base` (R63, R235(a)). -/
def State.bytes (s : State) (base count : Nat) : List Byte := (List.range count).map fun r => s.byte (base + r)

/-- Store bytes at ascending addresses from `base` (R63, R235(a)). -/
def State.storeBytes (s : State) (base : Nat) (xs : List Byte) : State :=
  { s with mem := Memory.pokeList s.config s.mem base xs }

/-- The bounds check of R66 on `count` accesses at ascending addresses from `base`, in unbounded integers (R67): the lowest out-of-range
address, if there is one. -/
def badAddress (base count : Nat) : Option Nat :=
  if 0 < count ∧ base + count - 1 > 4095 then some (max base 4096) else none

/-- The instruction word at `pc`: MemRead(pc, 2), big-endian (R62, R64); an error is the address the fetch fault reports (R122). -/
def State.fetch (s : State) : Except Nat Word :=
  match badAddress s.pc.toNat 2 with
  | some a => .error a
  | none => .ok (wordOfBytes (s.byte s.pc.toNat) (s.byte (s.pc.toNat + 1)))

/-- The pixel `fb[r][c]` (R33). -/
def State.pixel (s : State) (r : Fin 32) (c : Fin 64) : Bool := s.fb[r][c]

/-! ## The stack (R27-R30) -/

/-- `push(v)`; none is StackOverflow (R29). -/
def State.push (s : State) (w : Word) : Option State :=
  if h : s.sp.val < 16 then
    some { s with stack := s.stack.set s.sp.val w h, sp := ⟨s.sp.val + 1, by omega⟩ }
  else none

/-- `pop()`; none is StackUnderflow; the popped slot keeps its value (R30). -/
def State.pop (s : State) : Option (Word × State) :=
  if h : 0 < s.sp.val then
    some (s.stack[s.sp.val - 1]'(by omega), { s with sp := ⟨s.sp.val - 1, by omega⟩ })
  else none

/-! ## How an instruction ends (R25, R125) -/

/-- `pc <- pc + 2` (R127), result Ok. -/
def advance (s : State) : StepOutcome := .next { s with pc := s.pc + 2, result := .ok }

/-- `pc <- t`, unchecked (R154(a)), result Ok. -/
def jumpTo (t : Word) (s : State) : StepOutcome := .next { s with pc := t, result := .ok }

/-- `pc <- pc + 4` if the condition holds, else `pc + 2` (R164), result Ok. -/
def skipIf (b : Bool) (s : State) : StepOutcome :=
  .next { s with pc := if b then s.pc + 4 else s.pc + 2, result := .ok }

/-! ## Taking a fatal fault, and the only way out of it -/

/-- Fault entry (R308): HALTED(f), and Fault(f) as the result; nothing else changes (R309). There is no handler and no return (R310). -/
def raiseFault (f : FaultRecord) (s : State) : StepOutcome := .next { s with mode := .halted f, result := .fault f }

/-- The `reset` event (R350), the only exit from HALTED (R310): the block at its reset values under the same parameters. The events still
queued and the count of free bytes are the environment's, not the block's, and stay. -/
def resetEvent (s : State) : State :=
  { State.resetWith s.config with inputs := s.inputs, draws := s.draws }

/-! ## Unmatched words (R301) -/

/-- An unmatched word `w` fetched at `pc`: skipped and reported, or under STRICT_OPCODES a fatal fault. -/
def unmatchedWord (w : Word) (s : State) : StepOutcome :=
  if s.config.strictOpcodes then raiseFault (.unrecognizedOpcode s.pc w) s
  else .next { s with pc := s.pc + 2, result := .unrecognized s.pc w }

end Sys2Proof.Machine
end

