-- ==== Sys2Proof/Machine/Alu.lean ====
section
/-! DEFINITION. Register-to-register operations, spec/44_alu.md. Operands are read before any write (R128). -/

namespace Sys2Proof.Machine

/-- `8xy0` (R180). -/
def execLdReg (x y : Reg) (s : State) : StepOutcome := advance (s.setV x (s.getV y))

/-- `8xy1` (R181): VF is not written. -/
def execOrReg (x y : Reg) (s : State) : StepOutcome := advance (s.setV x (s.getV x ||| s.getV y))

/-- `8xy2` (R182): VF is not written. -/
def execAndReg (x y : Reg) (s : State) : StepOutcome := advance (s.setV x (s.getV x &&& s.getV y))

/-- `8xy3` (R183): VF is not written. -/
def execXorReg (x y : Reg) (s : State) : StepOutcome := advance (s.setV x (s.getV x ^^^ s.getV y))

/-- `8xy4` (R184). -/
def execAddReg (x y : Reg) (s : State) : StepOutcome :=
  advance (s.setFlagThenV (addCarry (s.getV x) (s.getV y)) x (s.getV x + s.getV y))

/-- `8xy5` (R185). -/
def execSub (x y : Reg) (s : State) : StepOutcome :=
  advance (s.setFlagThenV (noBorrow (s.getV x) (s.getV y)) x (s.getV x - s.getV y))

/-- `8xy6` (R186): logical, by one; `y` is not used (R99). -/
def execShr (x _y : Reg) (s : State) : StepOutcome :=
  advance (s.setFlagThenV (shrOut (s.getV x)) x (s.getV x >>> 1))

/-- `8xy7` (R187). -/
def execSubn (x y : Reg) (s : State) : StepOutcome :=
  advance (s.setFlagThenV (noBorrow (s.getV y) (s.getV x)) x (s.getV y - s.getV x))

/-- `8xyE` (R188): by one; `y` is not used (R99). -/
def execShl (x _y : Reg) (s : State) : StepOutcome :=
  advance (s.setFlagThenV (shlOut (s.getV x)) x (s.getV x <<< 1))

end Sys2Proof.Machine
end

