-- ==== Sys2Proof/Machine/Const.lean ====
section
/-! DEFINITION. Immediates and the random source, spec/43_const.md. -/

namespace Sys2Proof.Machine

/-- `6xkk` (R170). -/
def execLdImm (x : Reg) (kk : Byte) (s : State) : StepOutcome := advance (s.setV x kk)

/-- `7xkk` (R171): modulo 256, no flag. -/
def execAddImm (x : Reg) (kk : Byte) (s : State) : StepOutcome := advance (s.setV x (s.getV x + kk))

/-- `Annn` (R172). -/
def execLdI (nnn : Addr) (s : State) : StepOutcome := advance { s with iReg := zextAddr nnn }

/-- `Cxkk` (R173): the step's free byte, masked. -/
def execRnd (x : Reg) (kk : Byte) (s : State) : StepOutcome := advance (s.setV x (s.rnd &&& kk))

end Sys2Proof.Machine
end

