-- ==== Sys2Proof/Machine/Display.lean ====
section
/-! DEFINITION. The framebuffer, spec/45_display.md: clearing it, and drawing a sprite by exclusive or with collision detection. -/

namespace Sys2Proof.Machine

/-- A blank framebuffer. -/
def blankFb : Framebuffer := Vector.replicate 32 (Vector.replicate 64 false)

/-- A framebuffer being drawn on, and whether a set pixel was cleared so far (R201). -/
structure Canvas where
  fb : Framebuffer
  collision : Bool
  deriving DecidableEq, Repr

/-- A set sprite bit lands on `fb[row][col]`: a set pixel there is a collision, and the pixel flips (R201). -/
def drawPixel (row : Fin 32) (col : Fin 64) (k : Canvas) : Canvas :=
  { fb := k.fb.set row.val (k.fb[row].set col.val (!k.fb[row][col]) col.isLt) row.isLt
    collision := k.collision || k.fb[row][col] }

/-- One sprite row `b` at row `row`, its leftmost pixel at column `vx`: offsets 0 to 7 (R201-R203). -/
def drawRow (vx : Nat) (row : Fin 32) (b : Byte) (k : Canvas) : Canvas :=
  (List.range 8).foldl (fun k c => if spritePixel b c then drawPixel row (wrapCol (vx + c)) k else k) k

/-- The sprite's rows `r`, `r + 1`, ... at vertical coordinates `vy + r`, `vy + r + 1`, ... (R201, R203). -/
def drawRows (vx vy : Nat) : Nat → List Byte → Canvas → Canvas
  | _, [], k => k
  | r, b :: bs, k => drawRows vx vy (r + 1) bs (drawRow vx (wrapRow (vy + r)) b k)

/-- `00E0` (R200). -/
def execCls (s : State) : StepOutcome := advance { s with fb := blankFb }

/-- `Dxyn` (R201): all row addresses are checked first; the coordinates are the old registers; VF is always written. -/
def execDrw (x y : Reg) (n : Fin 16) (s : State) : StepOutcome :=
  match badAddress s.iReg.toNat n.val with
  | some a => raiseFault (.memoryFault s.pc (some (encode (.drw x y n))) a) s
  | none =>
    let k := drawRows (s.getV x).toNat (s.getV y).toNat 0 (s.bytes s.iReg.toNat n.val) ⟨s.fb, false⟩
    advance (({ s with fb := k.fb } : State).setV vf (flagByte k.collision))

end Sys2Proof.Machine
end

