-- ==== Sys2Proof/Machine/Flow.lean ====
section
/-! DEFINITION. Control transfer, spec/41_flow.md. No instruction checks the address it loads into `pc` (R154(a)). -/

namespace Sys2Proof.Machine

/-- `00EE` (R150): pop, then 2 past the popped address. -/
def execRet (s : State) : StepOutcome :=
  match s.pop with
  | some (t, s') => jumpTo (t + 2) s'
  | none => raiseFault (.stackUnderflow s.pc (encode .ret)) s

/-- `1nnn` (R151). -/
def execJp (nnn : Addr) (s : State) : StepOutcome := jumpTo (zextAddr nnn) s

/-- `2nnn` (R152): push the address of this instruction, then jump. -/
def execCall (nnn : Addr) (s : State) : StepOutcome :=
  match s.push s.pc with
  | some s' => jumpTo (zextAddr nnn) s'
  | none => raiseFault (.stackOverflow s.pc (encode (.call nnn))) s

/-- `Bnnn` (R153): the sum is not reduced. -/
def execJpV0 (nnn : Addr) (s : State) : StepOutcome := jumpTo (zextAddr nnn + zextByte (s.getV 0)) s

end Sys2Proof.Machine
end

