-- ==== Sys2Proof/Machine/Index.lean ====
section
/-! DEFINITION. Address-register arithmetic, stores and loads, spec/48_index_memory.md. `I` is never stepped by an access (R235(c)). -/

namespace Sys2Proof.Machine

/-- `Fx1E` (R230): modulo 65536; VF only under FX1E_VF_OVERFLOW, after `V[x]` was read. DEDUCED: its value there (D14, log entry 29). -/
def execAddI (x : Reg) (s : State) : StepOutcome :=
  let i := s.iReg + zextByte (s.getV x)
  if s.config.fx1eVfOverflow then
    advance { s.setV vf (flagByte (indexOverflow s.iReg (s.getV x))) with iReg := i }
  else advance { s with iReg := i }

/-- `Fx29` (R231): no memory access; the digit is the low nibble. -/
def execLdF (x : Reg) (s : State) : StepOutcome :=
  advance { s with iReg := digitAddress s.config.fontBase (lowNibble (s.getV x)) }

/-- `Fx33` (R232). -/
def execLdB (x : Reg) (s : State) : StepOutcome :=
  match badAddress s.iReg.toNat 3 with
  | some a => raiseFault (.memoryFault s.pc (some (encode (.ldB x))) a) s
  | none => advance (s.storeBytes s.iReg.toNat (bcdDigits (s.getV x)))

/-- `V[0]` to `V[x]` in order (R233). -/
def State.firstRegs (s : State) (x : Reg) : List Byte := s.v.toList.take (x.val + 1)

/-- `Fx55` (R233). -/
def execLdMemVx (x : Reg) (s : State) : StepOutcome :=
  match badAddress s.iReg.toNat (x.val + 1) with
  | some a => raiseFault (.memoryFault s.pc (some (encode (.ldMemVx x))) a) s
  | none => advance (s.storeBytes s.iReg.toNat (s.firstRegs x))

/-- The registers with `V[i]` taken from memory at `base + i` for `i` in 0..x, the others kept (R234). -/
def State.loadRegs (s : State) (base : Nat) (x : Reg) : Vector Byte 16 :=
  Vector.ofFn fun i => if i ≤ x then s.byte (base + i.val) else s.getV i

/-- `Fx65` (R234). -/
def execLdVxMem (x : Reg) (s : State) : StepOutcome :=
  match badAddress s.iReg.toNat (x.val + 1) with
  | some a => raiseFault (.memoryFault s.pc (some (encode (.ldVxMem x))) a) s
  | none => advance { s with v := s.loadRegs s.iReg.toNat x }

end Sys2Proof.Machine
end

