-- ==== Sys2Proof/Machine/Keypad.lean ====
section
/-! DEFINITION. The keypad, spec/46_keypad.md: the skips on a key, the dispatch of the key wait, and the two key events. -/

namespace Sys2Proof.Machine

/-- `Ex9E` (R210): the key is the low nibble of `V[x]` (R215). -/
def execSkp (x : Reg) (s : State) : StepOutcome := skipIf s.keys[lowNibble (s.getV x)] s

/-- `ExA1` (R211): the key is the low nibble of `V[x]` (R215). -/
def execSknp (x : Reg) (s : State) : StepOutcome := skipIf (!s.keys[lowNibble (s.getV x)]) s

/-- `Fx0A`, its dispatch half (R212): `pc` stays, and the step's result is Waiting (R125). -/
def execLdVxK (x : Reg) (s : State) : StepOutcome := .next { s with mode := .awaitingKey x, result := .waiting }

/-- The completion half of `Fx0A` (R213): the key index into `V[t]`, on to the next instruction, RUNNING. -/
def completeKeyWait (t : Reg) (k : Key) (s : State) : State :=
  { s.setV t (keyByte k) with pc := s.pc + 2, mode := .running }

/-- The event `key_down(k)` (R213): only a transition to down does anything; it completes a pending wait. -/
def keyDown (k : Key) (s : State) : State :=
  if s.keys[k] then s
  else
    let s' : State := { s with keys := s.keys.set k.val true k.isLt }
    match s.mode with
    | .running => s'
    | .awaitingKey t => completeKeyWait t k s'
    | .halted _ => s'

/-- The event `key_up(k)` (R214), in every mode. -/
def keyUp (k : Key) (s : State) : State := { s with keys := s.keys.set k.val false k.isLt }

end Sys2Proof.Machine
end

