-- ==== Sys2Proof/Machine/Skip.lean ====
section
/-! DEFINITION. Conditional skips on registers, spec/42_skip.md. -/

namespace Sys2Proof.Machine

/-- `3xkk` (R160). -/
def execSeImm (x : Reg) (kk : Byte) (s : State) : StepOutcome := skipIf (s.getV x == kk) s

/-- `4xkk` (R161). -/
def execSneImm (x : Reg) (kk : Byte) (s : State) : StepOutcome := skipIf (s.getV x != kk) s

/-- `5xy0` (R162). -/
def execSeReg (x y : Reg) (s : State) : StepOutcome := skipIf (s.getV x == s.getV y) s

/-- `9xy0` (R163). -/
def execSneReg (x y : Reg) (s : State) : StepOutcome := skipIf (s.getV x != s.getV y) s

end Sys2Proof.Machine
end

