-- ==== Sys2Proof/Machine/Timers.lean ====
section
/-! DEFINITION. The timers, spec/47_timers.md. -/

namespace Sys2Proof.Machine

/-- `Fx07` (R220). -/
def execLdVxDT (x : Reg) (s : State) : StepOutcome := advance (s.setV x s.dt)

/-- `Fx15` (R221). -/
def execLdDTVx (x : Reg) (s : State) : StepOutcome := advance { s with dt := s.getV x }

/-- `Fx18` (R222). -/
def execLdSTVx (x : Reg) (s : State) : StepOutcome := advance { s with st := s.getV x }

/-- One countdown of a timer: never below 0 (R223). -/
def countDown (b : Byte) : Byte := if b = 0 then 0 else b - 1

/-- The event `tick` (R223): both timers, in every mode, and nothing else. -/
def tick (s : State) : State := { s with dt := countDown s.dt, st := countDown s.st }

end Sys2Proof.Machine
end

