-- ==== Sys2Proof/Machine/Loader.lean ====
section
/-! DEFINITION. The loader's event `load_rom(rom)`, spec/20_memory.md rule R77 and spec/70_reset_and_hazards.md rule R351. -/

namespace Sys2Proof.Machine

/-- `load_rom(rom)`: refused once a step has executed or a load has succeeded since the last reset; a ROM that does not fit changes nothing
but the result; else its bytes go to 0x200 and up. -/
def loadRom (rom : List Byte) (s : State) : StepOutcome :=
  if s.romLoadable then
    if RomFits rom then .next { s.storeBytes 0x200 rom with romLoadable := false, result := .ok }
    else .next { s with result := .romTooLarge rom.length }
  else .refused .loadRomOutOfOrder

end Sys2Proof.Machine
end

