-- ==== Sys2Proof/Machine/Observe.lean ====
section
/-! DEFINITION. What the collaborators read and the trace names: spec/60_exceptions.md rules R314 and R316, spec/47_timers.md rule R224. -/

namespace Sys2Proof.Machine

/-- The read-only snapshot of the framebuffer (R314, R33). -/
def State.snapshot (s : State) : Framebuffer := s.fb

/-- The sound-timer value the audio collaborator reads (R224). -/
def State.soundValue (s : State) : Byte := s.st

/-- The derived one-bit output: a tone is active (R224). -/
def State.toneActive (s : State) : Bool := s.st != 0

/-- The mnemonic of R96 that a trace record carries (R316); no claim may rest on the string (N9). -/
def mnemonicOf : Instr → String
  | .cls => "CLS"
  | .ret => "RET"
  | .jp _ => "JP"
  | .call _ => "CALL"
  | .seImm _ _ => "SE"
  | .sneImm _ _ => "SNE"
  | .seReg _ _ => "SE"
  | .ldImm _ _ => "LD"
  | .addImm _ _ => "ADD"
  | .ldReg _ _ => "LD"
  | .orReg _ _ => "OR"
  | .andReg _ _ => "AND"
  | .xorReg _ _ => "XOR"
  | .addReg _ _ => "ADD"
  | .sub _ _ => "SUB"
  | .shr _ _ => "SHR"
  | .subn _ _ => "SUBN"
  | .shl _ _ => "SHL"
  | .sneReg _ _ => "SNE"
  | .ldI _ => "LD"
  | .jpV0 _ => "JP"
  | .rnd _ _ => "RND"
  | .drw _ _ _ => "DRW"
  | .skp _ => "SKP"
  | .sknp _ => "SKNP"
  | .ldVxDT _ => "LD"
  | .ldVxK _ => "LD"
  | .ldDTVx _ => "LD"
  | .ldSTVx _ => "LD"
  | .addI _ => "ADD"
  | .ldF _ => "LD"
  | .ldB _ => "LD"
  | .ldMemVx _ => "LD"
  | .ldVxMem _ => "LD"

/-- The name of the unmatched verdict in a trace record (R316). -/
def unmatchedName : String := "unmatched"

end Sys2Proof.Machine
end

