-- ==== Sys2Proof/Machine/Cycle.lean ====
section
/-! DEFINITION. The `step` event and the six events together, spec/40_step_cycle.md. -/

namespace Sys2Proof.Machine

/-- What every `step` event does to the fields beside the block's state: its free byte is at the input (R7), no trace record is out yet
(R316), and `load_rom` has no meaning any more (R77). -/
def State.beginStep (s : State) (rnd : Byte) : State := { s with rnd := rnd, trace := none, romLoadable := false }

/-- The trace record of the dispatched word (R316). -/
def State.traced (s : State) (w : Word) (name : String) : State := { s with trace := some ⟨w, name⟩ }

/-- Fetch, decode, execute (R122); the checks come in that order (R307). -/
def fetchAndRun (s : State) : StepOutcome :=
  match s.fetch with
  | .error a => raiseFault (.memoryFault s.pc none a) s
  | .ok w =>
    match decode w with
    | .instr i => exec i (s.traced w (mnemonicOf i))
    | .unmatched _ => unmatchedWord w (s.traced w unmatchedName)

/-- The event `step(rnd)`: in RUNNING one instruction (R122), in AWAITING_KEY nothing and Waiting (R123), in HALTED nothing and Halted(f) (R124). -/
def stepEvent (rnd : Byte) (s : State) : StepOutcome :=
  let s' := s.beginStep rnd
  match s.mode with
  | .running => fetchAndRun s'
  | .awaitingKey _ => .next { s' with result := .waiting }
  | .halted f => .next { s' with result := .halted f }

/-- One event, atomically (R120, R121). -/
def applyEvent (e : Event) (s : State) : StepOutcome :=
  match e with
  | .reset => .next (resetEvent s)
  | .loadRom rom => loadRom rom s
  | .step rnd => stepEvent rnd s
  | .tick => .next (tick s)
  | .keyDown k => .next (keyDown k s)
  | .keyUp k => .next (keyUp k s)

/-- The environment adds an event behind those it has issued already (R121). -/
def State.deliver (s : State) (e : Event) : State := { s with inputs := s.inputs ++ [e] }

/-- The next event of the queue or, where the queue is empty, a `step` with the next free byte (R7, D20). -/
def nextEvent (s : State) : StepOutcome :=
  match s.inputs with
  | e :: rest => applyEvent e { s with inputs := rest }
  | [] => stepEvent (Config.freeByte s.draws) { s with draws := s.draws + 1 }

/-- Where `withFetchWord` puts the word: at `pc` if a word fits there, else at the entry point 0x200. -/
def fetchSlot (s : State) : Word := if s.pc.toNat + 1 ≤ 4095 then s.pc else 0x0200

/-- The state with the word `w` at the place of the next fetch, RUNNING, and no event before the next `step`. -/
def placeWord (w : Word) (s : State) : State :=
  { s.storeBytes (fetchSlot s).toNat [highByte w, lowByte w] with pc := fetchSlot s, mode := .running, inputs := [] }

end Sys2Proof.Machine
end

