-- ==== Sys2Proof/Machine/Step.lean ====
section
/-! DEFINITION. One step of the machine: one event (spec/40_step_cycle.md rules R120, R121). -/

namespace Sys2Proof.Machine

/-- One step: the oldest queued event, or the `step` event where none is queued. -/
def step (s : State) : Host.Outcome State Fault Refusal := nextEvent s

/-- The host's placing of an instruction: the word of `nbits` bits `w` where the next step fetches it, and nothing queued before that step. -/
def State.withFetchWord (s : State) (nbits w : Nat) : State := placeWord (BitVec.ofNat 16 (w % 2 ^ nbits)) s

end Sys2Proof.Machine
end

