-- ==== Sys2Proof/Machine/Faults.lean ====
section
/-! DEFINITION. The fault taxonomy of spec/60_exceptions.md rule R300: kinds, the spec's own code numbers, classes, and the fields of a record. -/

namespace Sys2Proof.Machine

/-- The spec's own numbering (R300); it carries no other meaning (D19). -/
def Condition.code : Condition → Nat
  | .unrecognizedOpcode => 1
  | .stackOverflow => 2
  | .stackUnderflow => 3
  | .memoryFault => 4
  | .romTooLarge => 5
  | .romUnreadable => 6

/-- Whether a condition puts the machine in HALTED under the parameters (R300's class column). -/
def Condition.fatal (c : Config) : Condition → Bool
  | .unrecognizedOpcode => c.strictOpcodes
  | .stackOverflow => true
  | .stackUnderflow => true
  | .memoryFault => true
  | .romTooLarge => false
  | .romUnreadable => false

/-- The kind of a record. -/
def FaultRecord.kind : FaultRecord → Condition
  | .unrecognizedOpcode _ _ => .unrecognizedOpcode
  | .stackOverflow _ _ => .stackOverflow
  | .stackUnderflow _ _ => .stackUnderflow
  | .memoryFault _ _ _ => .memoryFault

/-- The address of the instruction that faulted. -/
def FaultRecord.pc : FaultRecord → Word
  | .unrecognizedOpcode pc _ => pc
  | .stackOverflow pc _ => pc
  | .stackUnderflow pc _ => pc
  | .memoryFault pc _ _ => pc

/-- The faulting word; absent for a fetch fault. -/
def FaultRecord.opcode : FaultRecord → Option Word
  | .unrecognizedOpcode _ w => some w
  | .stackOverflow _ w => some w
  | .stackUnderflow _ w => some w
  | .memoryFault _ w _ => w

/-- The lowest out-of-range address; only a MemoryFault has one. -/
def FaultRecord.addr : FaultRecord → Option Nat
  | .unrecognizedOpcode _ _ => none
  | .stackOverflow _ _ => none
  | .stackUnderflow _ _ => none
  | .memoryFault _ _ a => some a

/-- The condition a result reports, if it reports one (R311). -/
def Result.condition : Result → Option Condition
  | .noResult => none
  | .ok => none
  | .waiting => none
  | .unrecognized _ _ => some .unrecognizedOpcode
  | .fault f => some f.kind
  | .halted f => some f.kind
  | .romTooLarge _ => some .romTooLarge

end Sys2Proof.Machine
end

