-- ==== Sys2Proof/Safety.lean ====
section
/-! DEFINITION. The terms in which claims speak of a run: the invariant of the reachable states (spec/10_state.md rule R40), the machine's
runs under any environment, and the ends of a run (spec/70_reset_and_hazards.md rules R358, R359). -/

namespace Sys2Proof.Machine

/-- The invariant of R40, with what makes it hold of the next state: memory is in canonical form and FONT_BASE meets its constraint (R6). -/
structure Inv (s : State) : Prop where
  /-- `pc` in [0,0x10FE] (R26). -/
  pcRange : s.pc.toNat ≤ 0x10FE
  /-- Every occupied stack slot holds an address in [0,0xFFE]. -/
  slots : ∀ k : Fin 16, k.val < s.sp.val → s.stack[k].toNat ≤ 0x0FFE
  /-- While waiting, `pc` addresses the `Ft0A` that was dispatched, and no ROM can be loaded over it (R77). -/
  waiting : ∀ t, s.mode = .awaitingKey t → s.fetch = .ok (encode (.ldVxK t)) ∧ s.romLoadable = false
  /-- Memory is in canonical form. -/
  memory : Memory.wf s.config s.mem
  /-- The parameters meet R6's constraint. -/
  parameters : s.config.WellFormed

/-- The states of a machine with parameters `c`: from its reset state, by steps, in any environment. -/
inductive Reachable (c : Config) : State → Prop where
  | reset : Reachable c (State.resetWith c)
  | event {s : State} (e : Event) : Reachable c s → Reachable c (s.deliver e)
  | step {s t : State} : Reachable c s → step s = .next t → Reachable c t

/-- The convention of R358 for a completed program: RUNNING, with `pc` resting on a `1nnn` that jumps to itself. -/
def State.Completed (s : State) : Prop :=
  s.mode = .running ∧ ∃ nnn : Addr, s.fetch = .ok (encode (.jp nnn)) ∧ s.pc = zextAddr nnn

/-- Halted by a fatal fault: never a successful end (R359). -/
def State.Halted (s : State) : Prop := ∃ f, s.mode = .halted f

/-- Waiting for a key: never a successful end (R359). -/
def State.Waiting (s : State) : Prop := ∃ t, s.mode = .awaitingKey t

end Sys2Proof.Machine
end

