-- ==== Sys2Proof/Certificates/Slice0/Obligations.lean ====
section
/-! DEFINITION. The statements for the provers. In a conclusion of the form `t = { s with … }` the right side names every field that may
differ from `s`, so it is the statement's frame: every field it does not name, and with `mem` every byte of memory, is unchanged. -/

open Sys2Proof Sys2Proof.Machine

/-! ## Encoding -/

/-- R104, which the spec derives from its encoding rules: the worked decodes, word by word, the group of R97 for each unmatched one, and the
bytes of 0x8AB4 in memory. That 0x5121 and 0x01E0 are unmatched rests on the exact match, the spec's decision D28 (conflict C4, log entry
31). -/
def Obligations.WorkedWordsDecodeAsR104Says : Prop :=
  decode 0x8AB4 = .instr (.addReg 0xA 0xB) ∧ decode 0xD125 = .instr (.drw 1 2 5) ∧ decode 0xF30A = .instr (.ldVxK 3) ∧
  decode 0x5120 = .instr (.seReg 1 2) ∧ decode 0x5121 = .unmatched .family5 ∧ decode 0x00E0 = .instr .cls ∧
  decode 0x01E0 = .unmatched .family0 ∧ decode 0x0000 = .unmatched .family0 ∧ decode 0xE19E = .instr (.skp 1) ∧
  decode 0xE19F = .unmatched .familyE ∧ wordOfBytes 0x8A 0xB4 = 0x8AB4

/-- Every instruction, with every operand its fields admit, is what its word decodes to. The unused `y` of `8xy6` and `8xyE` is such an
operand by the model's choice to keep it in Instr (log entry 28); R99 makes all its values the same instruction. -/
def Obligations.DecodeOfEncodeIsTheInstruction : Prop :=
  ∀ i : Instr, decode (encode i) = .instr i

/-- No matched word loses a bit: encoding what it decodes to gives the word back. For `8xy6` and `8xyE` this includes the unused `y`, by the
model's choice to keep it in Instr (log entry 28; R99 makes its 16 values the same instruction); for `00E0`, `00EE`, `5xy0` and `9xy0` it
rests on the exact match, the spec's decision D28 (conflict C4, log entry 31). -/
def Obligations.EncodeOfDecodeIsTheWord : Prop :=
  ∀ (w : Word) (i : Instr), decode w = .instr i → encode i = w

/-- R95: decoding is total, a word decodes to the one row whose mask and match fit it, and is unmatched where no row fits. That the match is
exact for `00E0`, `00EE`, `5xy0` and `9xy0` is decision D28 (conflict C4, log entry 31). -/
def Obligations.DecodeIsTheMatchingRow : Prop :=
  (∀ (w : Word), ∀ r ∈ opcodeTable, w &&& r.mask = r.pat → decode w = .instr (r.build w)) ∧
  (∀ (w : Word), (∀ r ∈ opcodeTable, w &&& r.mask ≠ r.pat) → ∃ g, decode w = .unmatched g) ∧
  opcodeTable.length = 34 ∧
  (∀ (w : Word), ∀ r ∈ opcodeTable, ∀ q ∈ opcodeTable, w &&& r.mask = r.pat → w &&& q.mask = q.pat →
    r.mask = q.mask ∧ r.pat = q.pat)

/-- R97's table of unmatched words: the six groups, each with exactly its words. That the match is exact for `00E0`, `00EE`, `5xy0` and
`9xy0` is decision D28 (conflict C4, log entry 31). -/
def Obligations.UnmatchedWordsAreTheSixGroups : Prop :=
  ∀ (w : Word) (g : UnmatchedGroup), decode w = .unmatched g ↔
    (g = .family0 ∧ family w = 0x0 ∧ w ≠ 0x00E0 ∧ w ≠ 0x00EE) ∨
    (g = .family5 ∧ family w = 0x5 ∧ subNibble w ≠ 0x0) ∨
    (g = .family8 ∧ family w = 0x8 ∧ subNibble w ∈ [0x8, 0x9, 0xA, 0xB, 0xC, 0xD, 0xF]) ∨
    (g = .family9 ∧ family w = 0x9 ∧ subNibble w ≠ 0x0) ∨
    (g = .familyE ∧ family w = 0xE ∧ fieldKK w ∉ [0x9E, 0xA1]) ∨
    (g = .familyF ∧ family w = 0xF ∧ fieldKK w ∉ [0x07, 0x0A, 0x15, 0x18, 0x1E, 0x29, 0x33, 0x55, 0x65])

/-! ## The step event -/

/-- The model's step is one event (log entry 3): the oldest queued one or, with none queued, a `step` event with the next free byte, of
which nothing is known (log entry 4). That the byte is free is the spec's decision D20. -/
def Obligations.StepIsTheNextEvent : Prop :=
  ∀ s : State,
    (∀ e rest, s.inputs = e :: rest → step s = applyEvent e { s with inputs := rest }) ∧
    (s.inputs = [] → step s = stepEvent (Config.freeByte s.draws) { s with draws := s.draws + 1 })

/-- R122, its execute line: in RUNNING, when the big-endian word at `pc` decodes to an instruction, the step is exec of that instruction on
the state with the free byte at the input, a trace record out and `load_rom` over. With no event queued the free byte is the next one
of `Config.freeByte`, of which nothing is known; with a `step` event queued it is that event's (log entries 3 and 4). That a record is
always put out is the model's choice (log entry 19; R316 says "may"); its string is left open. -/
def Obligations.StepRunsTheDecodedInstruction : Prop :=
  ∀ (s : State) (w : Word) (i : Instr), s.mode = .running → s.pc.toNat + 1 ≤ 4095 →
    w = s.byte s.pc.toNat ++ s.byte (s.pc.toNat + 1) → decode w = .instr i →
    (s.inputs = [] → ∃ name, step s = exec i { s with
      rnd := Config.freeByte s.draws, draws := s.draws + 1, romLoadable := false, trace := some ⟨w, name⟩ }) ∧
    (∀ b rest, s.inputs = .step b :: rest → ∃ name, step s = exec i { s with
      rnd := b, inputs := rest, romLoadable := false, trace := some ⟨w, name⟩ })

/-- R122, its fetch line: `pc` of 0xFFF or more raises MemoryFault with the lowest out-of-range address, and nothing else changes. That such
a `pc` faults at the fetch and is not masked, and that the fault changes nothing else, are the spec's decisions D4 and D6 (log entry 18). -/
def Obligations.FetchOutOfRangeHalts : Prop :=
  ∀ (s : State) (b : Byte) (rest : List Event), s.mode = .running → s.inputs = .step b :: rest → 4095 < s.pc.toNat + 1 →
    step s = .next { s with
      mode := .halted (.memoryFault s.pc none (max s.pc.toNat 4096)), result := .fault (.memoryFault s.pc none (max s.pc.toNat 4096)),
      rnd := b, inputs := rest, romLoadable := false, trace := none }

/-- R301: an unmatched word is skipped and reported, or halts the machine with `pc` at it; that the strict halt leaves `pc` at the word is
the spec's own choice (decision D15, log entry 18). The frame names the model's own fields too. -/
def Obligations.UnmatchedWordIsReported : Prop :=
  ∀ (s : State) (w : Word) (g : UnmatchedGroup) (b : Byte) (rest : List Event),
    s.mode = .running → s.inputs = .step b :: rest → s.fetch = .ok w → decode w = .unmatched g →
    ∃ t, step s = .next t ∧
      (s.config.strictOpcodes = false → t = { s with
        pc := s.pc + 2, result := .unrecognized s.pc w, rnd := b, inputs := rest, romLoadable := false, trace := t.trace }) ∧
      (s.config.strictOpcodes = true → t = { s with
        mode := .halted (.unrecognizedOpcode s.pc w), result := .fault (.unrecognizedOpcode s.pc w), rnd := b, inputs := rest,
        romLoadable := false, trace := t.trace })

/-- R123: a step while waiting for a key changes none of the block's state and returns Waiting, a result whose name is the spec's own
(decision D18). -/
def Obligations.StepWhileAwaitingKeyChangesNothing : Prop :=
  ∀ (s : State) (r : Reg) (b : Byte) (rest : List Event), s.mode = .awaitingKey r → s.inputs = .step b :: rest →
    step s = .next { s with result := .waiting, rnd := b, inputs := rest, romLoadable := false, trace := none }

/-- R124: a step while halted changes none of the block's state and returns Halted with the original record, a result whose name is the
spec's own (decision D18). -/
def Obligations.StepWhileHaltedChangesNothing : Prop :=
  ∀ (s : State) (f : FaultRecord) (b : Byte) (rest : List Event), s.mode = .halted f → s.inputs = .step b :: rest →
    step s = .next { s with result := .halted f, rnd := b, inputs := rest, romLoadable := false, trace := none }

/-- R125: the result of a step event, when it is that result, and the mode after it, row by row; the names and the split between Ok and
Waiting are the spec's own (decisions D18 and D19). The row of Ok shuts out every condition of R300 that a step can meet (R311). -/
def Obligations.StepResultAndModeAgree : Prop :=
  ∀ (s t : State) (b : Byte), stepEvent b s = .next t →
    (t.result = .ok ∧ s.mode = .running ∧ t.mode = .running ∧
      ∃ w i, s.fetch = .ok w ∧ decode w = .instr i ∧ (∀ x, i ≠ .ldVxK x) ∧
        (∀ nnn, i = .call nnn → s.sp.val < 16) ∧ (i = .ret → 0 < s.sp.val) ∧
        (∀ x y n, i = .drw x y n → n.val = 0 ∨ s.iReg.toNat + n.val - 1 ≤ 4095) ∧
        (∀ x, i = .ldB x → s.iReg.toNat + 2 ≤ 4095) ∧
        (∀ x, i = .ldMemVx x ∨ i = .ldVxMem x → s.iReg.toNat + x.val ≤ 4095)) ∨
    (∃ r, t.result = .waiting ∧ t.mode = .awaitingKey r ∧
      ((s.mode = .running ∧ s.fetch = .ok (encode (.ldVxK r))) ∨ s.mode = .awaitingKey r)) ∨
    (∃ w g, t.result = .unrecognized s.pc w ∧ s.fetch = .ok w ∧ decode w = .unmatched g ∧ s.config.strictOpcodes = false ∧
      s.mode = .running ∧ t.mode = .running) ∨
    (∃ f, t.result = .fault f ∧ s.mode = .running ∧ t.mode = .halted f) ∨
    (∃ f, t.result = .halted f ∧ s.mode = .halted f ∧ t.mode = .halted f)

/-! ## The other events -/

/-- R223: `tick` counts both timers down by one, not below 0, and changes nothing else. That it does so in every mode is the spec's own
reading (decision D17, log entry 17). -/
def Obligations.TickCountsBothTimersDown : Prop :=
  ∀ (s : State) (rest : List Event), s.inputs = .tick :: rest →
    ∃ t, step s = .next t ∧ t.dt.toNat = s.dt.toNat - 1 ∧ t.st.toNat = s.st.toNat - 1 ∧
      t = { s with inputs := rest, dt := t.dt, st := t.st }

/-- R225: after `j` ticks a timer holds what it held less `j`, floored at 0. That this is so in every mode is the spec's own reading
(decision D17, log entry 17). -/
def Obligations.TimersAfterManyTicks : Prop :=
  ∀ (j : Nat) (s : State) (rest : List Event), s.inputs = List.replicate j Event.tick ++ rest →
    ∃ t, core.run j s = .next t ∧ t.dt.toNat = s.dt.toNat - j ∧ t.st.toNat = s.st.toNat - j ∧
      t = { s with inputs := rest, dt := t.dt, st := t.st }

/-- R213: `key_down(k)`, in each mode, with the completion of a pending key wait. That the wait completes inside the event, and on a
transition only, are points the spec settles itself (decision D16, log entry 16), as is the event's effect while halted (D17, log
entry 17). -/
def Obligations.KeyDownSetsTheKeyAndCompletesTheWait : Prop :=
  ∀ (s : State) (k : Key) (rest : List Event), s.inputs = .keyDown k :: rest →
    (s.keys[k] = true → step s = .next { s with inputs := rest }) ∧
    (s.keys[k] = false → ∃ t, step s = .next t ∧ t.keys[k] = true ∧ (∀ j : Key, j ≠ k → t.keys[j] = s.keys[j]) ∧
      (∀ r, s.mode = .awaitingKey r → (t.getV r).toNat = k.val ∧ (∀ j, j ≠ r → t.getV j = s.getV j) ∧
        t = { s with inputs := rest, keys := t.keys, v := t.v, pc := s.pc + 2, mode := .running }) ∧
      ((∀ r, s.mode ≠ .awaitingKey r) → t = { s with inputs := rest, keys := t.keys }))

/-- R214: `key_up(k)` clears the key and changes nothing else. That it does so in every mode is the spec's own reading (decision D17, log
entry 17). -/
def Obligations.KeyUpClearsTheKey : Prop :=
  ∀ (s : State) (k : Key) (rest : List Event), s.inputs = .keyUp k :: rest →
    ∃ t, step s = .next t ∧ t.keys[k] = false ∧ (∀ j : Key, j ≠ k → t.keys[j] = s.keys[j]) ∧
      t = { s with inputs := rest, keys := t.keys }

/-- R39: the value of every piece of the block's state after reset, for every choice of parameters; the reset state is the one with the
defaults of R6. -/
def Obligations.ResetValues : Prop :=
  State.reset = State.resetWith Config.default ∧
  ∀ (c : Config) (s : State), s = State.resetWith c →
    (∀ j, s.getV j = 0x00) ∧ s.iReg = 0x0000 ∧ s.pc = 0x0200 ∧ s.sp = 0 ∧ (∀ k : Fin 16, s.stack[k] = 0x0000) ∧
    s.dt = 0x00 ∧ s.st = 0x00 ∧ (∀ k : Key, s.keys[k] = false) ∧ (∀ r c', s.pixel r c' = false) ∧
    (∀ j : Fin 80, s.byte (c.fontBase.toNat + j.val) = c.font[j]) ∧
    (∀ a, a < c.fontBase.toNat ∨ c.fontBase.toNat + 80 ≤ a → s.byte a = 0x00) ∧
    s.mode = .running ∧ s.config = c

/-- R350: the `reset` event, in any mode: the reset values under the parameters it had. That there is one kind of reset, which clears
everything in any mode, is the spec's decision D30. The queue and the count of free bytes are the environment's and stay (log entry 9). -/
def Obligations.ResetEventRestoresResetState : Prop :=
  ∀ (s : State) (rest : List Event), s.inputs = .reset :: rest →
    ∃ t, step s = .next t ∧ t = { State.resetWith s.config with inputs := rest, draws := s.draws } ∧
      (∀ j, t.getV j = 0x00) ∧ t.iReg = 0x0000 ∧ t.pc = 0x0200 ∧ t.sp = 0 ∧ (∀ k : Fin 16, t.stack[k] = 0x0000) ∧
      t.dt = 0x00 ∧ t.st = 0x00 ∧ (∀ k : Key, t.keys[k] = false) ∧ (∀ r c, t.pixel r c = false) ∧
      (∀ j : Fin 80, t.byte (s.config.fontBase.toNat + j.val) = s.config.font[j]) ∧
      (∀ a, a < s.config.fontBase.toNat ∨ s.config.fontBase.toNat + 80 ≤ a → t.byte a = 0x00) ∧
      t.mode = .running ∧ t.config = s.config

/-- R77: `load_rom` stores a ROM that fits, changes nothing but the result for one that does not, and is refused once a step has executed or
a load has succeeded since the last reset. When a load is legal is the spec's decision D21; the flag `romLoadable` that remembers it is log
entry 8. -/
def Obligations.LoadRomStoresTheRomOnce : Prop :=
  ∀ (s : State) (rom : List Byte) (rest : List Event), s.inputs = .loadRom rom :: rest →
    (s.romLoadable = true → rom.length ≤ 3584 → ∃ t, step s = .next t ∧
      (∀ k (h : k < rom.length), t.byte (0x200 + k) = rom[k]) ∧
      (∀ a, a < 0x200 ∨ 0x200 + rom.length ≤ a → t.byte a = s.byte a) ∧
      t = { s with inputs := rest, mem := t.mem, romLoadable := false, result := .ok }) ∧
    (s.romLoadable = true → 3584 < rom.length → step s = .next { s with inputs := rest, result := .romTooLarge rom.length }) ∧
    (s.romLoadable = false → step s = .refused .loadRomOutOfOrder)

/-! ## Display -/

/-- R200: every pixel is cleared. -/
def Obligations.ClsClearsEveryPixel : Prop :=
  ∀ s : State, ∃ t, exec .cls s = .next t ∧ (∀ r c, t.pixel r c = false) ∧
    t = { s with fb := t.fb, pc := s.pc + 2, result := .ok }

/-- R201 with R202, R203 and R204: each pixel under sprite bit `(k, j)` is exclusive-ored with bit `7 - j` of byte `I + k`, at column
`(V[x] + j) mod 64` and row `(V[y] + k) mod 32`; no other pixel changes; VF is 1 exactly when a set pixel met a set sprite bit; nothing is
drawn where a row address is out of range. The bit order is from general knowledge (R202, D12, log entry 13); the wrap of every pixel and
the draw of height 0 are the spec's decisions D11 and D13 (log entry 14), the old VF as a coordinate D1 (log entry 11), and the fault
before any pixel D6 (log entry 18). -/
def Obligations.DrawXorsTheSpriteAndReportsCollision : Prop :=
  ∀ (x y : Reg) (n : Fin 16) (s : State),
    (n.val = 0 ∨ s.iReg.toNat + n.val - 1 ≤ 4095 → ∃ t, exec (.drw x y n) s = .next t ∧
      (∀ (k j : Nat) (r : Fin 32) (c : Fin 64), k < n.val → j < 8 →
        r.val = ((s.getV y).toNat + k) % 32 → c.val = ((s.getV x).toNat + j) % 64 →
        t.pixel r c = (s.pixel r c ^^ (s.byte (s.iReg.toNat + k)).getLsbD (7 - j))) ∧
      (∀ (r : Fin 32) (c : Fin 64), (∀ k j : Nat, k < n.val → j < 8 →
        r.val = ((s.getV y).toNat + k) % 32 → c.val ≠ ((s.getV x).toNat + j) % 64) → t.pixel r c = s.pixel r c) ∧
      (t.getV 15 = 1 ∨ t.getV 15 = 0) ∧
      (t.getV 15 = 1 ↔ ∃ (k j : Nat) (r : Fin 32) (c : Fin 64), k < n.val ∧ j < 8 ∧
        r.val = ((s.getV y).toNat + k) % 32 ∧ c.val = ((s.getV x).toNat + j) % 64 ∧
        (s.byte (s.iReg.toNat + k)).getLsbD (7 - j) = true ∧ s.pixel r c = true) ∧
      (∀ j, j ≠ 15 → t.getV j = s.getV j) ∧
      t = { s with fb := t.fb, v := t.v, pc := s.pc + 2, result := .ok }) ∧
    (0 < n.val → 4095 < s.iReg.toNat + n.val - 1 → exec (.drw x y n) s = .next { s with
      mode := .halted (.memoryFault s.pc (some (encode (.drw x y n))) (max s.iReg.toNat 4096)),
      result := .fault (.memoryFault s.pc (some (encode (.drw x y n))) (max s.iReg.toNat 4096)) })

/-- The source's test S9: the same sprite drawn twice at the same coordinates (VF, which the draw writes, may be one of them only where it
keeps its value) restores the framebuffer; on a blank one the first draw reports no collision, and the second does if the sprite has a set
bit. For a sprite across an edge the last part rests on the wrap of every pixel, the spec's decision D11 (log entry 14): a clipped bit
could not collide. -/
def Obligations.DrawingTwiceRestoresTheFramebuffer : Prop :=
  ∀ (x y : Reg) (n : Fin 16) (s : State), n.val = 0 ∨ s.iReg.toNat + n.val ≤ 4096 →
    ∃ t, exec (.drw x y n) s = .next t ∧ (t.getV x = s.getV x → t.getV y = s.getV y →
      ∃ u, exec (.drw x y n) t = .next u ∧ u.fb = s.fb ∧
        ((∀ r c, s.pixel r c = false) → t.getV 15 = 0 ∧
          (u.getV 15 = 1 ↔ ∃ k j : Nat, k < n.val ∧ j < 8 ∧ (s.byte (s.iReg.toNat + k)).getLsbD j = true)))

/-! ## Control transfer -/

/-- R151, R153: the two jumps; that the sum of `Bnnn` is not reduced is the spec's decision D4 (log entry 18). -/
def Obligations.JumpsSetPc : Prop :=
  ∀ (nnn : Addr) (s : State),
    (∃ t, exec (.jp nnn) s = .next t ∧ t.pc.toNat = nnn.toNat ∧ t = { s with pc := t.pc, result := .ok }) ∧
    (∃ t, exec (.jpV0 nnn) s = .next t ∧ t.pc.toNat = nnn.toNat + (s.getV 0).toNat ∧ t = { s with pc := t.pc, result := .ok })

/-- R152 with R29 and R302: the call pushes its own address, and with a full stack halts. That the slot holds the call's own address, and
which slot it is, are the spec's decisions D2 and D3 (log entry 15); that the halt changes nothing else is D6 (log entry 18). -/
def Obligations.CallPushesItsOwnAddress : Prop :=
  ∀ (nnn : Addr) (s : State),
    (s.sp.val < 16 → ∃ t, exec (.call nnn) s = .next t ∧ t.pc.toNat = nnn.toNat ∧ t.sp.val = s.sp.val + 1 ∧
      (∀ k : Fin 16, k.val = s.sp.val → t.stack[k] = s.pc) ∧ (∀ k : Fin 16, k.val ≠ s.sp.val → t.stack[k] = s.stack[k]) ∧
      t = { s with pc := t.pc, sp := t.sp, stack := t.stack, result := .ok }) ∧
    (s.sp = 16 → exec (.call nnn) s = .next { s with
      mode := .halted (.stackOverflow s.pc (encode (.call nnn))), result := .fault (.stackOverflow s.pc (encode (.call nnn))) })

/-- R150 with R30 and R303: the return goes 2 past the popped address and leaves the slot as it is; with an empty stack it halts. The 2
past the popped address and the kept slot are the spec's decisions D2 and D3 (log entry 15); that the halt changes nothing else is D6
(log entry 18). -/
def Obligations.ReturnGoesPastThePoppedAddress : Prop :=
  ∀ s : State,
    (0 < s.sp.val → ∃ t, exec .ret s = .next t ∧ t.sp.val = s.sp.val - 1 ∧
      (∀ k : Fin 16, k.val = s.sp.val - 1 → t.pc = s.stack[k] + 2) ∧ t = { s with pc := t.pc, sp := t.sp, result := .ok }) ∧
    (s.sp = 0 → exec .ret s = .next { s with
      mode := .halted (.stackUnderflow s.pc 0x00EE), result := .fault (.stackUnderflow s.pc 0x00EE) })

/-- The source's test S6 as the spec reads it: whatever the subroutine does to the rest of the state, the unoccupied slots of the stack
included, a return at the depth the call left, with the occupied slots as the call left them, resumes 2 past the call, at the depth the call
was made. The test's own words are "the exact `pc` value that preceded the call"; that the return goes on 2 past that value is the spec's
decision D2 (conflict C5), and that `sp` counts the occupied slots is D3 (log entry 15). -/
def Obligations.ReturnAfterCallResumesAfterTheCall : Prop :=
  ∀ (nnn : Addr) (s u : State), s.sp.val < 16 →
    (∀ t, exec (.call nnn) s = .next t → u.sp = t.sp ∧ ∀ k : Fin 16, k.val < t.sp.val → u.stack[k] = t.stack[k]) →
    ∃ w, exec .ret u = .next w ∧ w.pc = s.pc + 2 ∧ w.sp = s.sp

/-! ## Skips -/

/-- R160 to R163: the four skips on registers; nothing but `pc` and the result changes. -/
def Obligations.RegisterSkipsMovePcByFourOrTwo : Prop :=
  ∀ (x y : Reg) (kk : Byte) (s : State),
    exec (.seImm x kk) s = .next { s with pc := if s.getV x = kk then s.pc + 4 else s.pc + 2, result := .ok } ∧
    exec (.sneImm x kk) s = .next { s with pc := if s.getV x = kk then s.pc + 2 else s.pc + 4, result := .ok } ∧
    exec (.seReg x y) s = .next { s with pc := if s.getV x = s.getV y then s.pc + 4 else s.pc + 2, result := .ok } ∧
    exec (.sneReg x y) s = .next { s with pc := if s.getV x = s.getV y then s.pc + 2 else s.pc + 4, result := .ok }

/-- R210, R211 and R215: the two skips on a key, indexed by the low four bits of the register. The index of a register above 15 is the
spec's decision D10 (log entry 12). -/
def Obligations.KeySkipsTestTheLowNibblesKey : Prop :=
  ∀ (x : Reg) (k : Key) (s : State), k.val = (s.getV x).toNat % 16 →
    exec (.skp x) s = .next { s with pc := if s.keys[k] = true then s.pc + 4 else s.pc + 2, result := .ok } ∧
    exec (.sknp x) s = .next { s with pc := if s.keys[k] = true then s.pc + 2 else s.pc + 4, result := .ok }

/-! ## Constants -/

/-- R170, R171: load and add a byte; the addition wraps and writes no flag. That `x = 15` is no exception is the spec's decision D23 (R21,
conflict C6, log entry 30). -/
def Obligations.ImmediateLoadAndAddWriteOneRegister : Prop :=
  ∀ (x : Reg) (kk : Byte) (s : State),
    (∃ t, exec (.ldImm x kk) s = .next t ∧ t.getV x = kk ∧ (∀ j, j ≠ x → t.getV j = s.getV j) ∧
      t = { s with v := t.v, pc := s.pc + 2, result := .ok }) ∧
    (∃ t, exec (.addImm x kk) s = .next t ∧ (t.getV x).toNat = ((s.getV x).toNat + kk.toNat) % 256 ∧
      (∀ j, j ≠ x → t.getV j = s.getV j) ∧ t = { s with v := t.v, pc := s.pc + 2, result := .ok })

/-- R172: `I` takes the 12-bit address. -/
def Obligations.LoadIndexTakesTheAddress : Prop :=
  ∀ (nnn : Addr) (s : State), ∃ t, exec (.ldI nnn) s = .next t ∧ t.iReg.toNat = nnn.toNat ∧
    t = { s with iReg := t.iReg, pc := s.pc + 2, result := .ok }

/-- R173: the register takes the step's free byte, masked, whatever that byte is. That the byte is a free input of the step is the spec's
decision D20, and the field that holds it is the model's (log entry 4). That VF is a destination like any other is the spec's decision D23
(R21, conflict C6, log entry 30). -/
def Obligations.RandomIsTheFreeByteMasked : Prop :=
  ∀ (x : Reg) (kk : Byte) (s : State), ∃ t, exec (.rnd x kk) s = .next t ∧ t.getV x = s.rnd &&& kk ∧
    (∀ j, j ≠ x → t.getV j = s.getV j) ∧ t = { s with v := t.v, pc := s.pc + 2, result := .ok }

/-! ## Arithmetic and logic -/

/-- R180 to R183: copy, or, and, exclusive or; no flag is written. That VF is a destination like any other is the spec's decision D23 (R21,
conflict C6, log entry 30). -/
def Obligations.LogicalOperationsWriteNoFlag : Prop :=
  ∀ (x y : Reg) (s : State),
    (∃ t, exec (.ldReg x y) s = .next t ∧ t.getV x = s.getV y ∧ (∀ j, j ≠ x → t.getV j = s.getV j) ∧
      t = { s with v := t.v, pc := s.pc + 2, result := .ok }) ∧
    (∃ t, exec (.orReg x y) s = .next t ∧ t.getV x = s.getV x ||| s.getV y ∧ (∀ j, j ≠ x → t.getV j = s.getV j) ∧
      t = { s with v := t.v, pc := s.pc + 2, result := .ok }) ∧
    (∃ t, exec (.andReg x y) s = .next t ∧ t.getV x = s.getV x &&& s.getV y ∧ (∀ j, j ≠ x → t.getV j = s.getV j) ∧
      t = { s with v := t.v, pc := s.pc + 2, result := .ok }) ∧
    (∃ t, exec (.xorReg x y) s = .next t ∧ t.getV x = s.getV x ^^^ s.getV y ∧ (∀ j, j ≠ x → t.getV j = s.getV j) ∧
      t = { s with v := t.v, pc := s.pc + 2, result := .ok })

/-- R184: the sum modulo 256 and its carry. That with `x = 15` the result, not the flag, stands in VF is the spec's decision D1 (R190, log
entry 11). -/
def Obligations.AddSetsSumAndCarry : Prop :=
  ∀ (x y : Reg) (s : State), ∃ t, exec (.addReg x y) s = .next t ∧
    (t.getV x).toNat = ((s.getV x).toNat + (s.getV y).toNat) % 256 ∧
    (x ≠ 15 → t.getV 15 = if (s.getV x).toNat + (s.getV y).toNat > 255 then 1 else 0) ∧
    (∀ j, j ≠ x → j ≠ 15 → t.getV j = s.getV j) ∧ t = { s with v := t.v, pc := s.pc + 2, result := .ok }

/-- R185, R187: the two differences modulo 256 and the flag, 1 for no borrow, equality included. That with `x = 15` the result, not the
flag, stands in VF is the spec's decision D1 (R190, log entry 11). -/
def Obligations.SubtractionsSetDifferenceAndNoBorrow : Prop :=
  ∀ (x y : Reg) (s : State),
    (∃ t, exec (.sub x y) s = .next t ∧
      ((t.getV x).toNat : Int) = (((s.getV x).toNat : Int) - (s.getV y).toNat) % 256 ∧
      (x ≠ 15 → t.getV 15 = if (s.getV x).toNat ≥ (s.getV y).toNat then 1 else 0) ∧
      (∀ j, j ≠ x → j ≠ 15 → t.getV j = s.getV j) ∧ t = { s with v := t.v, pc := s.pc + 2, result := .ok }) ∧
    (∃ t, exec (.subn x y) s = .next t ∧
      ((t.getV x).toNat : Int) = (((s.getV y).toNat : Int) - (s.getV x).toNat) % 256 ∧
      (x ≠ 15 → t.getV 15 = if (s.getV y).toNat ≥ (s.getV x).toNat then 1 else 0) ∧
      (∀ j, j ≠ x → j ≠ 15 → t.getV j = s.getV j) ∧ t = { s with v := t.v, pc := s.pc + 2, result := .ok })

/-- R186, R188, R99: the two shifts by one of `V[x]`, the flag the bit shifted out; `y` is not used. That with `x = 15` the result, not the
flag, stands in VF is the spec's decision D1 (R190, log entry 11). -/
def Obligations.ShiftsMoveOneBitIntoTheFlag : Prop :=
  ∀ (x y : Reg) (s : State),
    (∃ t, exec (.shr x y) s = .next t ∧ (t.getV x).toNat = (s.getV x).toNat / 2 ∧
      (x ≠ 15 → (t.getV 15).toNat = (s.getV x).toNat % 2) ∧
      (∀ j, j ≠ x → j ≠ 15 → t.getV j = s.getV j) ∧ t = { s with v := t.v, pc := s.pc + 2, result := .ok }) ∧
    (∃ t, exec (.shl x y) s = .next t ∧ (t.getV x).toNat = (s.getV x).toNat * 2 % 256 ∧
      (x ≠ 15 → (t.getV 15).toNat = (s.getV x).toNat / 128) ∧
      (∀ j, j ≠ x → j ≠ 15 → t.getV j = s.getV j) ∧ t = { s with v := t.v, pc := s.pc + 2, result := .ok })

/-- R190: VF as an operand of a flag-writing instruction, the table cell by cell: `f` is the old VF, `v` the other operand's old value. The
whole table is the spec's decision D1 (log entry 11). -/
def Obligations.FlagRegisterAsOperand : Prop :=
  ∀ (z : Reg) (s : State) (f v : Nat), f = (s.getV 15).toNat → v = (s.getV z).toNat →
    (z ≠ 15 →
      (∃ t, exec (.addReg 15 z) s = .next t ∧ (t.getV 15).toNat = (f + v) % 256) ∧
      (∃ t, exec (.sub 15 z) s = .next t ∧ ((t.getV 15).toNat : Int) = ((f : Int) - v) % 256) ∧
      (∃ t, exec (.shr 15 z) s = .next t ∧ (t.getV 15).toNat = f / 2) ∧
      (∃ t, exec (.subn 15 z) s = .next t ∧ ((t.getV 15).toNat : Int) = ((v : Int) - f) % 256) ∧
      (∃ t, exec (.shl 15 z) s = .next t ∧ (t.getV 15).toNat = f * 2 % 256) ∧
      (∃ t, exec (.addReg z 15) s = .next t ∧ (t.getV z).toNat = (v + f) % 256 ∧ t.getV 15 = if v + f > 255 then 1 else 0) ∧
      (∃ t, exec (.sub z 15) s = .next t ∧ ((t.getV z).toNat : Int) = ((v : Int) - f) % 256 ∧ t.getV 15 = if v ≥ f then 1 else 0) ∧
      (∃ t, exec (.shr z 15) s = .next t ∧ (t.getV z).toNat = v / 2 ∧ (t.getV 15).toNat = v % 2) ∧
      (∃ t, exec (.subn z 15) s = .next t ∧ ((t.getV z).toNat : Int) = ((f : Int) - v) % 256 ∧ t.getV 15 = if f ≥ v then 1 else 0) ∧
      (∃ t, exec (.shl z 15) s = .next t ∧ (t.getV z).toNat = v * 2 % 256 ∧ (t.getV 15).toNat = v / 128)) ∧
    (∃ t, exec (.addReg 15 15) s = .next t ∧ (t.getV 15).toNat = 2 * f % 256) ∧
    (∃ t, exec (.sub 15 15) s = .next t ∧ t.getV 15 = 0) ∧
    (∃ t, exec (.shr 15 15) s = .next t ∧ (t.getV 15).toNat = f / 2) ∧
    (∃ t, exec (.subn 15 15) s = .next t ∧ t.getV 15 = 0) ∧
    (∃ t, exec (.shl 15 15) s = .next t ∧ (t.getV 15).toNat = f * 2 % 256)

/-! ## Timers and the key wait -/

/-- R220 to R222: reading the delay timer, setting either timer; and R224: the tone is active exactly while the sound timer is not 0. That
VF is a destination like any other is the spec's decision D23 (R21, conflict C6, log entry 30). -/
def Obligations.TimerInstructionsMoveTheTimers : Prop :=
  ∀ (x : Reg) (s : State),
    (∃ t, exec (.ldVxDT x) s = .next t ∧ t.getV x = s.dt ∧ (∀ j, j ≠ x → t.getV j = s.getV j) ∧
      t = { s with v := t.v, pc := s.pc + 2, result := .ok }) ∧
    exec (.ldDTVx x) s = .next { s with dt := s.getV x, pc := s.pc + 2, result := .ok } ∧
    (∃ t, exec (.ldSTVx x) s = .next t ∧ t = { s with st := s.getV x, pc := s.pc + 2, result := .ok } ∧
      (t.toneActive = true ↔ s.getV x ≠ 0))

/-- R212: the dispatch of the key wait changes the mode, with Waiting as the result, and leaves `pc`, the registers and the keys. The result
Waiting is the spec's own (decision D18). -/
def Obligations.KeyWaitDispatchLeavesPc : Prop :=
  ∀ (x : Reg) (s : State), exec (.ldVxK x) s = .next { s with mode := .awaitingKey x, result := .waiting }

/-- The source's test S10: however many steps are issued, a waiting machine stays as it is but for the outputs and inputs of those steps,
and the first transition of a key to down then completes the wait once, with the key's index in the target register and nothing else
changed. That the event itself completes the wait is the spec's decision D16 (log entry 16). The result Waiting is the spec's own (decision
D18). -/
def Obligations.KeyWaitHoldsUntilAKeyGoesDown : Prop :=
  ∀ (bs : List Byte) (s : State) (r : Reg) (k : Key) (rest : List Event), s.mode = .awaitingKey r → s.keys[k] = false →
    s.inputs = bs.map Event.step ++ .keyDown k :: rest →
    (∃ t, core.run bs.length s = .next t ∧ (bs ≠ [] → t.result = .waiting) ∧
      t = { s with inputs := .keyDown k :: rest, result := t.result, trace := t.trace, rnd := t.rnd, romLoadable := t.romLoadable }) ∧
    (∃ t, core.run (bs.length + 1) s = .next t ∧ (t.getV r).toNat = k.val ∧ (∀ j, j ≠ r → t.getV j = s.getV j) ∧
      t.keys[k] = true ∧ (∀ j : Key, j ≠ k → t.keys[j] = s.keys[j]) ∧
      t = { s with
        v := t.v, keys := t.keys, pc := s.pc + 2, mode := .running, inputs := rest, result := t.result, trace := t.trace, rnd := t.rnd,
        romLoadable := t.romLoadable })

/-! ## Index and memory -/

/-- R230: `I` plus the register modulo 65536; VF is written only under FX1E_VF_OVERFLOW, from the unbounded sum. What VF holds under that
parameter, 1 past `0xFFF` and else 0, written on every execution, is the spec's decision D14 (log entries 5 and 29). -/
def Obligations.AddToIndexWrapsAndFlagsByParameter : Prop :=
  ∀ (x : Reg) (s : State), ∃ t, exec (.addI x) s = .next t ∧
    t.iReg.toNat = (s.iReg.toNat + (s.getV x).toNat) % 65536 ∧
    (s.config.fx1eVfOverflow = false → t.v = s.v) ∧
    (s.config.fx1eVfOverflow = true → t.getV 15 = if s.iReg.toNat + (s.getV x).toNat > 0x0FFF then 1 else 0) ∧
    (∀ j, j ≠ 15 → t.getV j = s.getV j) ∧ t = { s with v := t.v, iReg := t.iReg, pc := s.pc + 2, result := .ok }

/-- R231: `I` points at the sprite of the register's low digit, FONT_BASE within its constraint (R6). The digit of a register above 15 is
the spec's decision D9 (log entry 12). -/
def Obligations.DigitAddressIsFiveBytesPerDigit : Prop :=
  ∀ (x : Reg) (s : State), s.config.fontBase.toNat + 80 ≤ 0x200 →
    ∃ t, exec (.ldF x) s = .next t ∧ t.iReg.toNat = s.config.fontBase.toNat + 5 * ((s.getV x).toNat % 16) ∧
      t = { s with iReg := t.iReg, pc := s.pc + 2, result := .ok }

/-- R232: the three decimal digits at `I`, `I + 1`, `I + 2`, every other byte unchanged; a fault and no byte written where `I > 4093`. That
the fault comes before any byte is written and changes nothing but the mode and the result is the spec's decision D6, and that no address
wraps is D5 (log entry 18). -/
def Obligations.DecimalDigitsAreStoredAtIndex : Prop :=
  ∀ (x : Reg) (s : State),
    (s.iReg.toNat ≤ 4093 → ∃ t, exec (.ldB x) s = .next t ∧
      (t.byte s.iReg.toNat).toNat = (s.getV x).toNat / 100 ∧
      (t.byte (s.iReg.toNat + 1)).toNat = (s.getV x).toNat / 10 % 10 ∧
      (t.byte (s.iReg.toNat + 2)).toNat = (s.getV x).toNat % 10 ∧
      (∀ a, a < s.iReg.toNat ∨ s.iReg.toNat + 3 ≤ a → t.byte a = s.byte a) ∧
      t = { s with mem := t.mem, pc := s.pc + 2, result := .ok }) ∧
    (4093 < s.iReg.toNat → exec (.ldB x) s = .next { s with
      mode := .halted (.memoryFault s.pc (some (encode (.ldB x))) (max s.iReg.toNat 4096)),
      result := .fault (.memoryFault s.pc (some (encode (.ldB x))) (max s.iReg.toNat 4096)) })

/-- R233: registers 0 to `x` at `I` and up, every other byte and every register unchanged, `I` too; a fault and no byte written where the
block does not fit. That the fault comes before any byte is written and changes nothing but the mode and the result is the spec's decision
D6, and that no address wraps is D5 (log entry 18). -/
def Obligations.BlockStoreCopiesRegistersToMemory : Prop :=
  ∀ (x : Reg) (s : State),
    (s.iReg.toNat + x.val ≤ 4095 → ∃ t, exec (.ldMemVx x) s = .next t ∧
      (∀ j : Reg, j ≤ x → t.byte (s.iReg.toNat + j.val) = s.getV j) ∧
      (∀ a, a < s.iReg.toNat ∨ s.iReg.toNat + x.val + 1 ≤ a → t.byte a = s.byte a) ∧
      t = { s with mem := t.mem, pc := s.pc + 2, result := .ok }) ∧
    (4095 < s.iReg.toNat + x.val → exec (.ldMemVx x) s = .next { s with
      mode := .halted (.memoryFault s.pc (some (encode (.ldMemVx x))) (max s.iReg.toNat 4096)),
      result := .fault (.memoryFault s.pc (some (encode (.ldMemVx x))) (max s.iReg.toNat 4096)) })

/-- R234: registers 0 to `x` from `I` and up, the registers above `x` unchanged, `I` and memory too; a fault and no register written where
the block does not fit. That the fault comes before any register is written and changes nothing but the mode and the result is the spec's
decision D6, and that no address wraps is D5 (log entry 18). That VF is a destination like any other is the spec's decision D23 (R21,
conflict C6, log entry 30). -/
def Obligations.BlockLoadCopiesMemoryToRegisters : Prop :=
  ∀ (x : Reg) (s : State),
    (s.iReg.toNat + x.val ≤ 4095 → ∃ t, exec (.ldVxMem x) s = .next t ∧
      (∀ j : Reg, j ≤ x → t.getV j = s.byte (s.iReg.toNat + j.val)) ∧ (∀ j : Reg, x < j → t.getV j = s.getV j) ∧
      t = { s with v := t.v, pc := s.pc + 2, result := .ok }) ∧
    (4095 < s.iReg.toNat + x.val → exec (.ldVxMem x) s = .next { s with
      mode := .halted (.memoryFault s.pc (some (encode (.ldVxMem x))) (max s.iReg.toNat 4096)),
      result := .fault (.memoryFault s.pc (some (encode (.ldVxMem x))) (max s.iReg.toNat 4096)) })

/-- The source's test S8: a block load from where a block store put it restores the registers, whatever happened in between to them and to
every other byte of memory (R234: provided the block was not written). -/
def Obligations.BlockStoreThenLoadRestoresRegisters : Prop :=
  ∀ (x : Reg) (s u : State), s.iReg.toNat + x.val ≤ 4095 →
    (∀ t, exec (.ldMemVx x) s = .next t →
      u.iReg = t.iReg ∧ ∀ a, s.iReg.toNat ≤ a → a ≤ s.iReg.toNat + x.val → u.byte a = t.byte a) →
    ∃ w, exec (.ldVxMem x) u = .next w ∧ (∀ j : Reg, j ≤ x → w.getV j = s.getV j)

/-- R76: a store into the code, by `Fx55` or `Fx33`, over both bytes of the next word, one of them or neither, is seen by the very next
fetch: each byte of the fetched word is the stored one where the store covers it and the old one where it does not. -/
def Obligations.StoredCodeIsFetchedNext : Prop :=
  ∀ (x : Reg) (s : State), s.pc.toNat + 3 ≤ 4095 →
    (s.iReg.toNat + x.val ≤ 4095 → ∃ (t : State) (hi lo : Byte), exec (.ldMemVx x) s = .next t ∧ t.fetch = .ok (hi ++ lo) ∧
      ∀ (a : Nat) (b : Byte), (a = s.pc.toNat + 2 ∧ b = hi) ∨ (a = s.pc.toNat + 3 ∧ b = lo) →
        (∀ j : Reg, j ≤ x → a = s.iReg.toNat + j.val → b = s.getV j) ∧
        (a < s.iReg.toNat ∨ s.iReg.toNat + x.val < a → b = s.byte a)) ∧
    (s.iReg.toNat + 2 ≤ 4095 → ∃ (t : State) (hi lo : Byte), exec (.ldB x) s = .next t ∧ t.fetch = .ok (hi ++ lo) ∧
      ∀ (a : Nat) (b : Byte), (a = s.pc.toNat + 2 ∧ b = hi) ∨ (a = s.pc.toNat + 3 ∧ b = lo) →
        (a = s.iReg.toNat → b.toNat = (s.getV x).toNat / 100) ∧
        (a = s.iReg.toNat + 1 → b.toNat = (s.getV x).toNat / 10 % 10) ∧
        (a = s.iReg.toNat + 2 → b.toNat = (s.getV x).toNat % 10) ∧
        (a < s.iReg.toNat ∨ s.iReg.toNat + 2 < a → b = s.byte a))

/-- R66, R67: the model's bounds check (badAddress, log entry 18) on consecutive addresses reports the lowest out-of-range one, and reports
none exactly when all are in range. That the lowest is reported, over all the addresses of one instruction, is the spec's decision D6; that
the addresses are unbounded integers, none of which wraps, is D5. -/
def Obligations.BoundsCheckReportsTheLowestBadAddress : Prop :=
  ∀ (base count : Nat),
    (badAddress base count = none ↔ ∀ k, k < count → base + k ≤ 4095) ∧
    (∀ a, badAddress base count = some a ↔
      (∃ k, k < count ∧ a = base + k) ∧ 4095 < a ∧ ∀ k, k < count → 4095 < base + k → a ≤ base + k)

/-- The model's canonical form of memory (log entry 7): two memories in it that read the same at every address are the same list. -/
def Obligations.MemoriesThatReadAlikeAreEqual : Prop :=
  ∀ (c : Config) (m m' : List Host.Cell), Memory.wf c m → Memory.wf c m' →
    (∀ a, Memory.peek c m a = Memory.peek c m' a) → m = m'

/-! ## Whole-machine rules -/

/-- R32, R37(a), R225, R23: no instruction writes the keys or the parameters; only `Fx15` writes DT, only `Fx18` writes ST, only
`Annn`, `Fx1E` and `Fx29` write `I`. -/
def Obligations.WritersOfKeysTimersAndIndex : Prop :=
  ∀ (i : Instr) (s t : State), exec i s = .next t →
    t.keys = s.keys ∧ t.config = s.config ∧
    ((∀ x, i ≠ .ldDTVx x) → t.dt = s.dt) ∧ ((∀ x, i ≠ .ldSTVx x) → t.st = s.st) ∧
    ((∀ nnn, i ≠ .ldI nnn) → (∀ x, i ≠ .addI x) → (∀ x, i ≠ .ldF x) → t.iReg = s.iReg)

/-- R27, R33, R69: only `2nnn` writes a stack slot and only it and `00EE` move `sp`; only `00E0` and `Dxyn` write the framebuffer; only
`Fx33` and `Fx55` write memory. -/
def Obligations.WritersOfStackFramebufferAndMemory : Prop :=
  ∀ (i : Instr) (s t : State), exec i s = .next t →
    ((∀ nnn, i ≠ .call nnn) → t.stack = s.stack) ∧ ((∀ nnn, i ≠ .call nnn) → i ≠ .ret → t.sp = s.sp) ∧
    (i ≠ .cls → (∀ x y n, i ≠ .drw x y n) → t.fb = s.fb) ∧
    ((∀ x, i ≠ .ldB x) → (∀ x, i ≠ .ldMemVx x) → t.mem = s.mem)

/-- R38's row for the registers and R41's last paragraph: register `j` changes only under an instruction that has it as its destination, or,
for VF, under one that writes the flag. That `Fx1E` writes VF under FX1E_VF_OVERFLOW is decision D14 (log entries 5 and 29). That VF is a
destination like any other is the spec's decision D23 (R21, conflict C6, log entry 30). -/
def Obligations.WritersOfTheRegisters : Prop :=
  ∀ (i : Instr) (s t : State) (j : Reg), exec i s = .next t → t.getV j ≠ s.getV j →
    (∃ kk, i = .ldImm j kk ∨ i = .addImm j kk ∨ i = .rnd j kk) ∨
    (∃ y, i = .ldReg j y ∨ i = .orReg j y ∨ i = .andReg j y ∨ i = .xorReg j y) ∨
    (∃ x y, (j = x ∨ j = 15) ∧ (i = .addReg x y ∨ i = .sub x y ∨ i = .shr x y ∨ i = .subn x y ∨ i = .shl x y)) ∨
    i = .ldVxDT j ∨ (∃ x, j ≤ x ∧ i = .ldVxMem x) ∨
    (j = 15 ∧ ((∃ x y n, i = .drw x y n) ∨ (s.config.fx1eVfOverflow = true ∧ ∃ x, i = .addI x)))

/-- R309, R308: a step that halts a running machine leaves every piece of the block's state but the mode as it was; the record names the
instruction's own address. That a faulting step changes nothing is the spec's own choice (decision D6, log entry 18). -/
def Obligations.FaultsArePrecise : Prop :=
  ∀ (s t : State) (f : FaultRecord), s.mode = .running → step s = .next t → t.mode = .halted f →
    f.pc = s.pc ∧
    t = { s with mode := .halted f, result := .fault f, trace := t.trace, romLoadable := false, rnd := t.rnd, draws := t.draws,
                 inputs := s.inputs.tail }

/-- R307's stage 4: which fault an instruction can raise. -/
def Obligations.EachInstructionRaisesOneKindOfFault : Prop :=
  ∀ (i : Instr) (s t : State) (f : FaultRecord), s.mode = .running → exec i s = .next t → t.mode = .halted f →
    (f = .stackOverflow s.pc (encode i) ∧ (∃ nnn, i = .call nnn) ∧ s.sp = 16) ∨
    (f = .stackUnderflow s.pc (encode i) ∧ i = .ret ∧ s.sp = 0) ∨
    (f = .memoryFault s.pc (some (encode i)) (max s.iReg.toNat 4096) ∧
      ((∃ x y n, i = .drw x y n) ∨ (∃ x, i = .ldB x ∨ i = .ldMemVx x ∨ i = .ldVxMem x)))

/-- R310: a halted machine stays halted with its record, and its registers, `pc`, stack and framebuffer stay, under every event but reset.
That reset is the only exit, and that a further step changes nothing, are the spec's decisions D30 and D18. -/
def Obligations.HaltedIsLeftByResetOnly : Prop :=
  ∀ (s t : State) (f : FaultRecord), s.mode = .halted f → step s = .next t → s.inputs.head? ≠ some .reset →
    t.mode = .halted f ∧ t.v = s.v ∧ t.iReg = s.iReg ∧ t.pc = s.pc ∧ t.sp = s.sp ∧ t.stack = s.stack ∧ t.fb = s.fb ∧
    (s.romLoadable = false → t.mem = s.mem)

/-- R216: a key wait is left only by reset or by a key that was up going down, and then for RUNNING. That a key already down does not end
the wait is the spec's decision D16 (log entry 16). -/
def Obligations.KeyWaitIsLeftByKeyDownOrResetOnly : Prop :=
  ∀ (s t : State) (r : Reg), s.mode = .awaitingKey r → step s = .next t → t.mode ≠ .awaitingKey r →
    t.mode = .running ∧
    (s.inputs.head? = some .reset ∨ ∃ k : Key, s.inputs.head? = some (.keyDown k) ∧ s.keys[k] = false)

/-- R120 to R124 with R308: every step ends in a next state, but for a `load_rom` out of order, to which the spec gives no meaning (R77,
decision D21, log entry 8). That a step with a fatal fault ends in a next state, in HALTED, is the model's choice (log entry 1), and so is
the step with nothing queued (log entry 3). -/
def Obligations.EveryStepCompletes : Prop :=
  ∀ s : State, (∃ t, step s = .next t) ∨
    ((∃ rom rest, s.inputs = .loadRom rom :: rest) ∧ s.romLoadable = false ∧ step s = .refused .loadRomOutOfOrder)

/-- R358: in the completed state every further step leaves the block's state unchanged, and the state stays completed: a queued `step`
event, and the step with nothing queued, which is the model's own (log entry 3) with the free byte of log entry 4. The convention of
completion is the spec's decision D25. -/
def Obligations.SelfJumpIsAFixedPoint : Prop :=
  ∀ (s : State), s.Completed →
    (∀ b rest, s.inputs = .step b :: rest → ∃ t, step s = .next t ∧ t.Completed ∧
      t = { s with result := .ok, trace := t.trace, romLoadable := false, rnd := b, inputs := rest }) ∧
    (s.inputs = [] → ∃ t, step s = .next t ∧ t.Completed ∧
      t = { s with result := .ok, trace := t.trace, romLoadable := false, rnd := t.rnd, draws := s.draws + 1 })

/-- R40, with the canonical form of memory: the invariant holds of the next state, whatever event the step was. Its bound on `pc` rests on
the spec's decision D4 (log entry 18). -/
def Obligations.EveryStepKeepsTheInvariant : Prop :=
  ∀ s t : State, Inv s → step s = .next t → Inv t

/-- R40: the invariant holds after reset, for every choice of parameters within R6's constraint, the defaults among them. -/
def Obligations.ResetMeetsTheInvariant : Prop :=
  (∀ c : Config, c.WellFormed → Inv (State.resetWith c)) ∧ Inv State.reset

/-- R40: every state reachable from reset, in any environment, meets the invariant. -/
def Obligations.ReachableStatesMeetTheInvariant : Prop :=
  ∀ (c : Config) (s : State), c.WellFormed → Reachable c s → Inv s
end

