-- ==== Sys2Proof/Laws/Decode.lean ====
section
/-! SUPPORT. The fields of an encoded word, the masks of R96 on the formats of R93, and that no two rows of the opcode map overlap (R95). -/

namespace Sys2Proof

open BitVec in
/-- A field that lies in the low part of a word is that part's field. -/
theorem field_low {v w : Nat} (hi : BitVec v) (lo : BitVec w) {start len : Nat} (h : start + len ≤ w) :
    (hi ++ lo).extractLsb' start len = lo.extractLsb' start len :=
  extractLsb'_append_eq_of_add_le h

open BitVec in
/-- A field that lies in the high part of a word is that part's field. -/
theorem field_high {v w : Nat} (hi : BitVec v) (lo : BitVec w) {start len : Nat} (h : w ≤ start) :
    (hi ++ lo).extractLsb' start len = hi.extractLsb' (start - w) len :=
  extractLsb'_append_eq_of_le h

/-! ## Fields of the formats (R92, R93) -/

@[simp] theorem family_formatA (f : BitVec 4) (nnn : Addr) : family (formatA f nnn) = f := by
  rw [family, formatA, field_high _ _ (by decide)]; simp

@[simp] theorem fieldNNN_formatA (f : BitVec 4) (nnn : Addr) : fieldNNN (formatA f nnn) = nnn := by
  rw [fieldNNN, formatA, field_low _ _ (by decide)]; simp

@[simp] theorem family_formatXK (f : BitVec 4) (x : Reg) (kk : Byte) : family (formatXK f x kk) = f := by
  rw [family, formatXK, field_high _ _ (by decide)]; simp

@[simp] theorem fieldX_formatXK (f : BitVec 4) (x : Reg) (kk : Byte) : fieldX (formatXK f x kk) = x := by
  rw [fieldX, formatXK, field_low _ _ (by decide), field_high _ _ (by decide)]; simp

@[simp] theorem fieldKK_formatXK (f : BitVec 4) (x : Reg) (kk : Byte) : fieldKK (formatXK f x kk) = kk := by
  rw [fieldKK, formatXK, field_low _ _ (by decide), field_low _ _ (by decide)]; simp

@[simp] theorem family_formatXYN (f : BitVec 4) (x y : Reg) (n : BitVec 4) : family (formatXYN f x y n) = f := by
  rw [family, formatXYN, field_high _ _ (by decide)]; simp

@[simp] theorem fieldX_formatXYN (f : BitVec 4) (x y : Reg) (n : BitVec 4) : fieldX (formatXYN f x y n) = x := by
  rw [fieldX, formatXYN, field_low _ _ (by decide), field_high _ _ (by decide)]; simp

@[simp] theorem fieldY_formatXYN (f : BitVec 4) (x y : Reg) (n : BitVec 4) : fieldY (formatXYN f x y n) = y := by
  rw [fieldY, formatXYN, field_low _ _ (by decide), field_low _ _ (by decide), field_high _ _ (by decide)]; simp

@[simp] theorem fieldN_formatXYN (f : BitVec 4) (x y : Reg) (n : BitVec 4) : fieldN (formatXYN f x y n) = n.toFin := by
  rw [fieldN, formatXYN, field_low _ _ (by decide), field_low _ _ (by decide), field_low _ _ (by decide)]; simp

/-! ## Masks of the opcode map on the formats: a mask clears the variable fields and keeps the fixed ones -/

theorem formatA_mask (f : BitVec 4) (nnn : Addr) : formatA f nnn &&& 0xF000 = formatA f 0 := by
  rw [formatA, show (0xF000 : Word) = (BitVec.allOnes 4 ++ (0 : BitVec 12) : BitVec 16) from rfl, BitVec.and_append]
  simp only [BitVec.and_allOnes, BitVec.ofNat_eq_ofNat, BitVec.and_zero, formatA]

theorem formatXK_mask (f : BitVec 4) (x : Reg) (kk : Byte) : formatXK f x kk &&& 0xF000 = formatXK f 0 0 := by
  rw [formatXK, show (0xF000 : Word) = (BitVec.allOnes 4 ++ (0 : BitVec 12) : BitVec 16) from rfl, BitVec.and_append]
  simp only [BitVec.and_allOnes, BitVec.ofNat_eq_ofNat, BitVec.and_zero, formatXK]
  rfl

theorem formatXK_maskSub (f : BitVec 4) (x : Reg) (kk : Byte) : formatXK f x kk &&& 0xF0FF = formatXK f 0 kk := by
  rw [formatXK, show (0xF0FF : Word) = (BitVec.allOnes 4 ++ ((0 : BitVec 4) ++ BitVec.allOnes 8 : BitVec 12) : BitVec 16) from rfl,
    BitVec.and_append, BitVec.and_append]
  simp only [BitVec.and_allOnes, BitVec.ofNat_eq_ofNat, BitVec.and_zero, formatXK]
  rfl

theorem formatXYN_mask (f : BitVec 4) (x y : Reg) (n : BitVec 4) : formatXYN f x y n &&& 0xF000 = formatXYN f 0 0 0 := by
  rw [formatXYN, show (0xF000 : Word) = (BitVec.allOnes 4 ++ (0 : BitVec 12) : BitVec 16) from rfl, BitVec.and_append]
  simp only [BitVec.and_allOnes, BitVec.ofNat_eq_ofNat, BitVec.and_zero, formatXYN]
  rfl

theorem formatXYN_maskSub (f : BitVec 4) (x y : Reg) (n : BitVec 4) : formatXYN f x y n &&& 0xF00F = formatXYN f 0 0 n := by
  rw [formatXYN, show (0xF00F : Word) =
      (BitVec.allOnes 4 ++ ((0 : BitVec 4) ++ ((0 : BitVec 4) ++ BitVec.allOnes 4 : BitVec 8) : BitVec 12) : BitVec 16) from rfl,
    BitVec.and_append, BitVec.and_append, BitVec.and_append]
  simp only [BitVec.and_allOnes, BitVec.ofNat_eq_ofNat, BitVec.and_zero, formatXYN]
  rfl

/-! ## The opcode map -/

/-- No word is two rows' (R95): two rows always differ in a bit that both fix. -/
theorem opcodeTable_disjoint : opcodeTable.Pairwise fun r q => r.pat &&& q.mask ≠ q.pat &&& r.mask := by decide

/-- The map has the 34 rows of R96. -/
theorem opcodeTable_length : opcodeTable.length = 34 := by decide

/-- A word's two bytes, put together again, are the word (R62). -/
@[simp] theorem wordOfBytes_high_low (w : Word) : wordOfBytes (highByte w) (lowByte w) = w := by
  simp only [wordOfBytes, highByte, lowByte]
  exact BitVec.extractLsb'_append_extractLsb'_eq_extractLsb' (by decide) |>.trans (by simp)

end Sys2Proof
end

