-- ==== Sys2Proof/Laws/State.lean ====
section
/-! SUPPORT. The small lemmas of the state: one per field per update, and reading after writing a register. -/

namespace Sys2Proof.Machine

/-! ## setV -/

@[simp] theorem getV_setV_same (s : State) (x : Reg) (b : Byte) : (s.setV x b).getV x = b := by
  simp [State.getV, State.setV]

@[simp] theorem getV_setV_ne (s : State) {x j : Reg} (b : Byte) (h : j ≠ x) : (s.setV x b).getV j = s.getV j := by
  have : x.val ≠ j.val := fun e => h (Fin.ext e.symm)
  simp [State.getV, State.setV, Vector.getElem_set_ne _ _ this]

theorem getV_setV (s : State) (x j : Reg) (b : Byte) : (s.setV x b).getV j = if j = x then b else s.getV j := by
  by_cases h : j = x
  · subst h; simp
  · simp [h]

@[simp] theorem setV_iReg (s : State) (x : Reg) (b : Byte) : (s.setV x b).iReg = s.iReg := rfl
@[simp] theorem setV_pc (s : State) (x : Reg) (b : Byte) : (s.setV x b).pc = s.pc := rfl
@[simp] theorem setV_sp (s : State) (x : Reg) (b : Byte) : (s.setV x b).sp = s.sp := rfl
@[simp] theorem setV_stack (s : State) (x : Reg) (b : Byte) : (s.setV x b).stack = s.stack := rfl
@[simp] theorem setV_dt (s : State) (x : Reg) (b : Byte) : (s.setV x b).dt = s.dt := rfl
@[simp] theorem setV_st (s : State) (x : Reg) (b : Byte) : (s.setV x b).st = s.st := rfl
@[simp] theorem setV_keys (s : State) (x : Reg) (b : Byte) : (s.setV x b).keys = s.keys := rfl
@[simp] theorem setV_fb (s : State) (x : Reg) (b : Byte) : (s.setV x b).fb = s.fb := rfl
@[simp] theorem setV_mem (s : State) (x : Reg) (b : Byte) : (s.setV x b).mem = s.mem := rfl
@[simp] theorem setV_mode (s : State) (x : Reg) (b : Byte) : (s.setV x b).mode = s.mode := rfl
@[simp] theorem setV_config (s : State) (x : Reg) (b : Byte) : (s.setV x b).config = s.config := rfl
@[simp] theorem setV_result (s : State) (x : Reg) (b : Byte) : (s.setV x b).result = s.result := rfl
@[simp] theorem setV_trace (s : State) (x : Reg) (b : Byte) : (s.setV x b).trace = s.trace := rfl
@[simp] theorem setV_romLoadable (s : State) (x : Reg) (b : Byte) : (s.setV x b).romLoadable = s.romLoadable := rfl
@[simp] theorem setV_rnd (s : State) (x : Reg) (b : Byte) : (s.setV x b).rnd = s.rnd := rfl
@[simp] theorem setV_draws (s : State) (x : Reg) (b : Byte) : (s.setV x b).draws = s.draws := rfl
@[simp] theorem setV_inputs (s : State) (x : Reg) (b : Byte) : (s.setV x b).inputs = s.inputs := rfl

/-! ## setFlagThenV -/

/-- The result wins over the flag where both go to the same register (R190); every other register is kept. -/
theorem getV_setFlagThenV (s : State) (flag : Bool) (x j : Reg) (b : Byte) :
    (s.setFlagThenV flag x b).getV j = if j = x then b else if j = vf then flagByte flag else s.getV j := by
  simp only [State.setFlagThenV, getV_setV]

theorem setFlagThenV_frame (s : State) (flag : Bool) (x : Reg) (b : Byte) :
    s.setFlagThenV flag x b = { s with v := (s.setFlagThenV flag x b).v } := rfl

/-! ## storeBytes -/

@[simp] theorem storeBytes_v (s : State) (a : Nat) (xs : List Byte) : (s.storeBytes a xs).v = s.v := rfl
@[simp] theorem storeBytes_iReg (s : State) (a : Nat) (xs : List Byte) : (s.storeBytes a xs).iReg = s.iReg := rfl
@[simp] theorem storeBytes_pc (s : State) (a : Nat) (xs : List Byte) : (s.storeBytes a xs).pc = s.pc := rfl
@[simp] theorem storeBytes_sp (s : State) (a : Nat) (xs : List Byte) : (s.storeBytes a xs).sp = s.sp := rfl
@[simp] theorem storeBytes_stack (s : State) (a : Nat) (xs : List Byte) : (s.storeBytes a xs).stack = s.stack := rfl
@[simp] theorem storeBytes_dt (s : State) (a : Nat) (xs : List Byte) : (s.storeBytes a xs).dt = s.dt := rfl
@[simp] theorem storeBytes_st (s : State) (a : Nat) (xs : List Byte) : (s.storeBytes a xs).st = s.st := rfl
@[simp] theorem storeBytes_keys (s : State) (a : Nat) (xs : List Byte) : (s.storeBytes a xs).keys = s.keys := rfl
@[simp] theorem storeBytes_fb (s : State) (a : Nat) (xs : List Byte) : (s.storeBytes a xs).fb = s.fb := rfl
@[simp] theorem storeBytes_mode (s : State) (a : Nat) (xs : List Byte) : (s.storeBytes a xs).mode = s.mode := rfl
@[simp] theorem storeBytes_config (s : State) (a : Nat) (xs : List Byte) : (s.storeBytes a xs).config = s.config := rfl
@[simp] theorem storeBytes_result (s : State) (a : Nat) (xs : List Byte) : (s.storeBytes a xs).result = s.result := rfl
@[simp] theorem storeBytes_trace (s : State) (a : Nat) (xs : List Byte) : (s.storeBytes a xs).trace = s.trace := rfl
@[simp] theorem storeBytes_romLoadable (s : State) (a : Nat) (xs : List Byte) : (s.storeBytes a xs).romLoadable = s.romLoadable := rfl
@[simp] theorem storeBytes_rnd (s : State) (a : Nat) (xs : List Byte) : (s.storeBytes a xs).rnd = s.rnd := rfl
@[simp] theorem storeBytes_draws (s : State) (a : Nat) (xs : List Byte) : (s.storeBytes a xs).draws = s.draws := rfl
@[simp] theorem storeBytes_inputs (s : State) (a : Nat) (xs : List Byte) : (s.storeBytes a xs).inputs = s.inputs := rfl

/-! ## resetEvent -/

@[simp] theorem resetEvent_config (s : State) : (resetEvent s).config = s.config := rfl
@[simp] theorem resetEvent_inputs (s : State) : (resetEvent s).inputs = s.inputs := rfl
@[simp] theorem resetEvent_draws (s : State) : (resetEvent s).draws = s.draws := rfl
@[simp] theorem resetEvent_mode (s : State) : (resetEvent s).mode = .running := rfl
@[simp] theorem resetEvent_mem (s : State) : (resetEvent s).mem = [] := rfl

end Sys2Proof.Machine
end

