-- ==== Sys2Proof/Laws/Memory.lean ====
section
/-! SUPPORT. Memory: what is read after a store, and that every memory operation keeps the canonical form. -/

namespace Sys2Proof.Machine.Memory

/-! ## Looking up after an update of the list -/

theorem lookup_insert_same (m : List Host.Cell) (a : Nat) (x : Byte) : lookup (insert m a x) a = some x := by
  induction m with
  | nil => simp [insert, lookup]
  | cons p m ih =>
    obtain ⟨b, w⟩ := p
    by_cases h₁ : a < b
    · simp [insert, h₁, lookup]
    · by_cases h₂ : a = b
      · simp [insert, h₂, lookup]
      · simp [insert, h₁, h₂, lookup, ih]

theorem lookup_insert_ne (m : List Host.Cell) {a b : Nat} (x : Byte) (h : b ≠ a) : lookup (insert m a x) b = lookup m b := by
  induction m with
  | nil => simp [insert, lookup, h]
  | cons p m ih =>
    obtain ⟨d, w⟩ := p
    by_cases h₁ : a < d
    · simp [insert, h₁, lookup, h]
    · by_cases h₂ : a = d
      · subst h₂; simp [insert, lookup, h]
      · simp [insert, h₁, h₂, lookup, ih]

theorem lookup_erase_same (m : List Host.Cell) (a : Nat) : lookup (erase m a) a = none := by
  induction m with
  | nil => rfl
  | cons p m ih =>
    obtain ⟨b, w⟩ := p
    by_cases h : a = b
    · simpa [erase, h] using h ▸ ih
    · simp [erase, h, lookup, ih]

theorem lookup_erase_ne (m : List Host.Cell) {a b : Nat} (h : b ≠ a) : lookup (erase m a) b = lookup m b := by
  induction m with
  | nil => rfl
  | cons p m ih =>
    obtain ⟨d, w⟩ := p
    by_cases h₂ : a = d
    · subst h₂; simp [erase, lookup, h, ih]
    · simp [erase, h₂, lookup, ih]

/-! ## Reading after a store (R70) -/

@[simp] theorem peek_nil (c : Config) (a : Nat) : peek c [] a = background c a := rfl

theorem peek_poke (c : Config) (m : List Host.Cell) (a b : Nat) (x : Byte) :
    peek c (poke c m a x) b = if b = a then x else peek c m b := by
  unfold peek poke
  by_cases h : b = a
  · subst h
    by_cases hx : x = background c b
    · simp [← hx, lookup_erase_same]
    · simp [hx, lookup_insert_same]
  · by_cases hx : x = background c a
    · rw [if_pos hx, if_neg h, lookup_erase_ne m h]
    · rw [if_neg hx, if_neg h, lookup_insert_ne m x h]

/-- The byte read after storing `xs` from `base`: the stored one inside the block, the old one outside. -/
theorem peek_pokeList (c : Config) (xs : List Byte) : ∀ (m : List Host.Cell) (base a : Nat),
    peek c (pokeList c m base xs) a =
      if h : base ≤ a ∧ a < base + xs.length then xs[a - base]'(by omega) else peek c m a := by
  induction xs with
  | nil =>
    intro m base a
    have : ¬(base ≤ a ∧ a < base + ([] : List Byte).length) := by simp
    rw [dif_neg this]; rfl
  | cons x xs ih =>
    intro m base a
    simp only [pokeList, ih, peek_poke, List.length_cons]
    by_cases h₁ : a = base
    · subst h₁; simp
    · by_cases h₂ : base + 1 ≤ a ∧ a < base + 1 + xs.length
      · have h₃ : base ≤ a ∧ a < base + (xs.length + 1) := by omega
        have h₄ : a - base = a - (base + 1) + 1 := by omega
        simp [h₂, h₃, h₄]
      · have h₃ : ¬(base ≤ a ∧ a < base + (xs.length + 1)) := by omega
        simp only [dif_neg h₂, dif_neg h₃, if_neg h₁]

/-! ## The canonical form is kept -/

theorem mem_insert {m : List Host.Cell} {a : Nat} {x : Byte} {p : Host.Cell} (h : p ∈ insert m a x) :
    p = (a, x) ∨ p ∈ m := by
  induction m with
  | nil => simpa [insert] using h
  | cons q m ih =>
    obtain ⟨b, w⟩ := q
    unfold insert at h
    split at h
    · simpa using h
    · split at h
      · rcases List.mem_cons.1 h with h | h
        · exact .inl h
        · exact .inr (List.mem_cons_of_mem _ h)
      · rcases List.mem_cons.1 h with h | h
        · exact .inr (h ▸ List.mem_cons_self)
        · exact (ih h).imp id (List.mem_cons_of_mem _)

theorem mem_erase {m : List Host.Cell} {a : Nat} {p : Host.Cell} (h : p ∈ erase m a) : p ∈ m := by
  induction m with
  | nil => simp [erase] at h
  | cons q m ih =>
    obtain ⟨b, w⟩ := q
    unfold erase at h
    split at h
    · exact List.mem_cons_of_mem _ (ih h)
    · rcases List.mem_cons.1 h with h | h
      · exact h ▸ List.mem_cons_self
      · exact List.mem_cons_of_mem _ (ih h)

theorem insert_rising {m : List Host.Cell} (hm : m.Pairwise fun p q => p.1 < q.1) (a : Nat) (x : Byte) :
    (insert m a x).Pairwise fun p q => p.1 < q.1 := by
  induction m with
  | nil => simp [insert]
  | cons q m ih =>
    obtain ⟨b, w⟩ := q
    obtain ⟨hq, hm⟩ := List.pairwise_cons.1 hm
    unfold insert
    split
    · rename_i hab
      refine List.pairwise_cons.2 ⟨fun p hp => ?_, List.pairwise_cons.2 ⟨hq, hm⟩⟩
      rcases List.mem_cons.1 hp with rfl | hp
      · exact hab
      · exact Nat.lt_trans hab (hq p hp)
    · split
      · rename_i hab
        exact List.pairwise_cons.2 ⟨fun p hp => hab ▸ hq p hp, hm⟩
      · refine List.pairwise_cons.2 ⟨fun p hp => ?_, ih hm⟩
        rcases mem_insert hp with rfl | hp
        · simp only; omega
        · exact hq p hp

theorem erase_rising {m : List Host.Cell} (hm : m.Pairwise fun p q => p.1 < q.1) (a : Nat) :
    (erase m a).Pairwise fun p q => p.1 < q.1 := by
  induction m with
  | nil => simp [erase]
  | cons q m ih =>
    obtain ⟨b, w⟩ := q
    obtain ⟨hq, hm⟩ := List.pairwise_cons.1 hm
    unfold erase
    split
    · exact ih hm
    · exact List.pairwise_cons.2 ⟨fun p hp => hq p (mem_erase hp), ih hm⟩

theorem nil_wf (c : Config) : wf c [] := by simp [wf]

/-- A store to an address that exists keeps the canonical form. -/
theorem poke_wf {c : Config} {m : List Host.Cell} (hm : wf c m) {a : Nat} (ha : a < 4096) (x : Byte) :
    wf c (poke c m a x) := by
  unfold poke
  split
  · exact ⟨erase_rising hm.1 a, fun p hp => hm.2 p (mem_erase hp)⟩
  · rename_i hx
    refine ⟨insert_rising hm.1 a x, fun p hp => ?_⟩
    rcases mem_insert hp with rfl | hp
    · exact ⟨ha, hx⟩
    · exact hm.2 p hp

/-- A block store inside [0,4096) keeps the canonical form. -/
theorem pokeList_wf {c : Config} (xs : List Byte) : ∀ {m : List Host.Cell} {base : Nat}, wf c m → base + xs.length ≤ 4096 →
    wf c (pokeList c m base xs) := by
  induction xs with
  | nil => intro m base hm _; exact hm
  | cons x xs ih =>
    intro m base hm h
    simp only [List.length_cons] at h
    exact ih (poke_wf hm (by omega) x) (by omega)

end Sys2Proof.Machine.Memory
end

