-- ==== Sys2Proof/Laws/Ops.lean ====
section
/-! SUPPORT. One lemma for each shared operation that says once everything it can do; later proofs cite these instead of unfolding. -/

namespace Sys2Proof.Machine

/-! ## Bytes of memory -/

/-- A block store changes the bytes of the block and no other byte (R65, R70). -/
theorem byte_storeBytes (s : State) (base : Nat) (xs : List Byte) (a : Nat) :
    (s.storeBytes base xs).byte a =
      if h : base ≤ a ∧ a < base + xs.length then xs[a - base]'(by omega) else s.byte a :=
  Memory.peek_pokeList s.config xs s.mem base a

theorem byte_storeBytes_inside (s : State) (base : Nat) (xs : List Byte) (k : Nat) (h : k < xs.length) :
    (s.storeBytes base xs).byte (base + k) = xs[k] := by
  rw [byte_storeBytes, dif_pos (by omega)]
  simp

theorem byte_storeBytes_outside (s : State) (base : Nat) (xs : List Byte) {a : Nat} (h : a < base ∨ base + xs.length ≤ a) :
    (s.storeBytes base xs).byte a = s.byte a := by
  rw [byte_storeBytes, dif_neg (by omega)]

/-- Two states with the same parameters and the same memory read the same bytes. -/
theorem byte_congr {s t : State} (hc : t.config = s.config) (hm : t.mem = s.mem) (a : Nat) : t.byte a = s.byte a := by
  simp only [State.byte, hc, hm]

@[simp] theorem length_bytes (s : State) (base count : Nat) : (s.bytes base count).length = count := by
  simp [State.bytes]

@[simp] theorem getElem_bytes (s : State) (base count k : Nat) (h : k < (s.bytes base count).length) :
    (s.bytes base count)[k] = s.byte (base + k) := by
  simp [State.bytes]

@[simp] theorem length_bcdDigits (b : Byte) : (bcdDigits b).length = 3 := rfl

@[simp] theorem length_firstRegs (s : State) (x : Reg) : (s.firstRegs x).length = x.val + 1 := by
  simp [State.firstRegs]

@[simp] theorem getElem_firstRegs (s : State) (x : Reg) (k : Nat) (h : k < (s.firstRegs x).length) :
    (s.firstRegs x)[k] = s.getV ⟨k, by simp at h; omega⟩ := by
  simp [State.firstRegs, State.getV]

/-- The block load register by register (R234). -/
theorem getElem_loadRegs (s : State) (base : Nat) (x i : Reg) :
    (s.loadRegs base x)[i] = if i ≤ x then s.byte (base + i.val) else s.getV i := by
  simp [State.loadRegs]

/-! ## The bounds check (R66) -/

theorem badAddress_eq_none {base count : Nat} : badAddress base count = none ↔ count = 0 ∨ base + count ≤ 4096 := by
  unfold badAddress
  split <;> simp <;> omega

theorem badAddress_eq_some {base count a : Nat} :
    badAddress base count = some a ↔ 0 < count ∧ 4096 < base + count ∧ a = max base 4096 := by
  unfold badAddress
  split <;> simp <;> omega

/-! ## Fetch (R122) -/

theorem fetch_eq_ok {s : State} {w : Word} :
    s.fetch = .ok w ↔ s.pc.toNat + 1 ≤ 4095 ∧ w = wordOfBytes (s.byte s.pc.toNat) (s.byte (s.pc.toNat + 1)) := by
  unfold State.fetch
  cases h : badAddress s.pc.toNat 2 with
  | none => have := badAddress_eq_none.1 h; constructor
            · intro e; exact ⟨by omega, by injection e with e; exact e.symm⟩
            · rintro ⟨-, rfl⟩; rfl
  | some a => have := badAddress_eq_some.1 h; constructor
              · intro e; cases e
              · rintro ⟨h', -⟩; omega

theorem fetch_eq_error {s : State} {a : Nat} :
    s.fetch = .error a ↔ 4095 < s.pc.toNat + 1 ∧ a = max s.pc.toNat 4096 := by
  unfold State.fetch
  cases h : badAddress s.pc.toNat 2 with
  | none => have := badAddress_eq_none.1 h; constructor
            · intro e; cases e
            · rintro ⟨h', -⟩; omega
  | some b => have := badAddress_eq_some.1 h; constructor
              · intro e; injection e with e; omega
              · rintro ⟨-, rfl⟩; rw [this.2.2]

/-- The fetch reads `pc`, the parameters and memory, and nothing else. -/
theorem fetch_congr {s t : State} (hp : t.pc = s.pc) (hc : t.config = s.config) (hm : t.mem = s.mem) : t.fetch = s.fetch := by
  simp only [State.fetch, State.byte, hp, hc, hm]

/-! ## The stack (R29, R30) -/

theorem push_eq_some {s t : State} {w : Word} :
    s.push w = some t ↔
      ∃ h : s.sp.val < 16, t = { s with stack := s.stack.set s.sp.val w h, sp := ⟨s.sp.val + 1, by omega⟩ } := by
  unfold State.push
  split
  · rename_i h; constructor
    · intro e; exact ⟨h, by injection e with e; exact e.symm⟩
    · rintro ⟨-, rfl⟩; rfl
  · rename_i h; constructor
    · intro e; cases e
    · rintro ⟨h', -⟩; exact absurd h' h

theorem push_eq_none {s : State} {w : Word} : s.push w = none ↔ s.sp = 16 := by
  have hz : s.sp = 16 ↔ s.sp.val = 16 := Fin.ext_iff
  unfold State.push
  split <;> simp [hz] <;> omega

theorem pop_eq_some {s t : State} {w : Word} :
    s.pop = some (w, t) ↔
      ∃ h : 0 < s.sp.val, w = s.stack[s.sp.val - 1]'(by omega) ∧ t = { s with sp := ⟨s.sp.val - 1, by omega⟩ } := by
  unfold State.pop
  split
  · rename_i h; constructor
    · intro e; injection e with e; injection e with e₁ e₂; exact ⟨h, e₁.symm, e₂.symm⟩
    · rintro ⟨-, rfl, rfl⟩; rfl
  · rename_i h; constructor
    · intro e; cases e
    · rintro ⟨h', -⟩; exact absurd h' h

theorem pop_eq_none {s : State} : s.pop = none ↔ s.sp = 0 := by
  unfold State.pop
  by_cases h : 0 < s.sp.val
  · rw [dif_pos h]
    exact iff_of_false nofun fun e => by rw [e] at h; exact absurd h (by decide)
  · rw [dif_neg h]
    exact iff_of_true rfl (Fin.ext (by simpa using h))

/-! ## How an instruction ends -/

theorem advance_eq_next {s t : State} : advance s = .next t ↔ t = { s with pc := s.pc + 2, result := .ok } := by
  simp [advance, eq_comm]

theorem jumpTo_eq_next {w : Word} {s t : State} : jumpTo w s = .next t ↔ t = { s with pc := w, result := .ok } := by
  simp [jumpTo, eq_comm]

theorem skipIf_eq_next {b : Bool} {s t : State} :
    skipIf b s = .next t ↔ t = { s with pc := if b then s.pc + 4 else s.pc + 2, result := .ok } := by
  simp [skipIf, eq_comm]

/-- A fault changes the mode and the result and nothing else (R308, R309). -/
theorem raiseFault_eq_next {f : FaultRecord} {s t : State} :
    raiseFault f s = .next t ↔ t = { s with mode := .halted f, result := .fault f } := by
  simp [raiseFault, eq_comm]

/-- An unmatched word is skipped and reported, or halts the machine (R301). -/
theorem unmatchedWord_eq_next {w : Word} {s t : State} :
    unmatchedWord w s = .next t ↔
      (s.config.strictOpcodes = false ∧ t = { s with pc := s.pc + 2, result := .unrecognized s.pc w }) ∨
      (s.config.strictOpcodes = true ∧
        t = { s with mode := .halted (.unrecognizedOpcode s.pc w), result := .fault (.unrecognizedOpcode s.pc w) }) := by
  unfold unmatchedWord
  cases s.config.strictOpcodes <;> simp [raiseFault, eq_comm]

/-! ## Drawing (R201) -/

/-- Drawing a pixel flips that pixel and no other. -/
theorem drawPixel_fb (row : Fin 32) (col : Fin 64) (k : Canvas) (r : Fin 32) (c : Fin 64) :
    (drawPixel row col k).fb[r][c] = if r = row ∧ c = col then !k.fb[r][c] else k.fb[r][c] := by
  simp only [drawPixel, Fin.getElem_fin, Vector.getElem_set]
  by_cases hr : r = row
  · subst hr
    by_cases hc : c = col
    · subst hc; simp only [↓reduceIte, Vector.getElem_set, and_self]
    · have : col.val ≠ c.val := fun e => hc (Fin.ext e.symm)
      simp only [↓reduceIte, Vector.getElem_set, hc, this, and_false]
  · have : row.val ≠ r.val := fun e => hr (Fin.ext e.symm)
    simp only [↓reduceIte, hr, this, false_and]

/-- Drawing a pixel reports a collision exactly when that pixel was set, and keeps an earlier collision. -/
theorem drawPixel_collision (row : Fin 32) (col : Fin 64) (k : Canvas) :
    (drawPixel row col k).collision = (k.collision || k.fb[row][col]) := rfl

end Sys2Proof.Machine
end

