-- ==== Sys2Proof/Laws/Draw.lean ====
section
/-! SUPPORT. A draw as the list of the places its set sprite bits land on, each place once. -/

namespace Sys2Proof.Machine

/-- Draw on each place of a list. -/
def plot (l : List (Fin 32 × Fin 64)) (k : Canvas) : Canvas := l.foldl (fun k p => drawPixel p.1 p.2 k) k

/-- The places of one sprite row. -/
def rowHits (vx : Nat) (row : Fin 32) (b : Byte) : List (Fin 32 × Fin 64) :=
  ((List.range 8).filter fun c => spritePixel b c).map fun c => (row, wrapCol (vx + c))

/-- The places of a sprite from its row `r` on. -/
def hits (vx vy : Nat) : Nat → List Byte → List (Fin 32 × Fin 64)
  | _, [] => []
  | r, b :: bs => rowHits vx (wrapRow (vy + r)) b ++ hits vx vy (r + 1) bs

theorem drawRow_eq_plot (vx : Nat) (row : Fin 32) (b : Byte) (k : Canvas) : drawRow vx row b k = plot (rowHits vx row b) k := by
  simp only [drawRow, plot, rowHits, List.foldl_map, List.foldl_filter]

theorem drawRows_eq_plot (vx vy : Nat) (bs : List Byte) : ∀ (r : Nat) (k : Canvas),
    drawRows vx vy r bs k = plot (hits vx vy r bs) k := by
  induction bs with
  | nil => intro r k; rfl
  | cons b bs ih => intro r k; rw [drawRows, ih, drawRow_eq_plot]; simp only [hits, plot, List.foldl_append]

theorem mem_rowHits {vx : Nat} {row : Fin 32} {b : Byte} {p : Fin 32 × Fin 64} :
    p ∈ rowHits vx row b ↔ ∃ j, j < 8 ∧ spritePixel b j = true ∧ p.1 = row ∧ p.2.val = (vx + j) % 64 := by
  simp only [rowHits, List.mem_map, List.mem_filter, List.mem_range]
  constructor
  · rintro ⟨j, ⟨h₁, h₂⟩, rfl⟩; exact ⟨j, h₁, h₂, rfl, rfl⟩
  · rintro ⟨j, h₁, h₂, h₃, h₄⟩; exact ⟨j, ⟨h₁, h₂⟩, Prod.ext h₃.symm (Fin.ext h₄.symm)⟩

theorem mem_hits {vx vy : Nat} {bs : List Byte} : ∀ {r : Nat} {p : Fin 32 × Fin 64}, p ∈ hits vx vy r bs ↔
    ∃ k j, ∃ h : k < bs.length, j < 8 ∧ spritePixel bs[k] j = true ∧ p.1.val = (vy + r + k) % 32 ∧ p.2.val = (vx + j) % 64 := by
  induction bs with
  | nil => intro r p; simp [hits]
  | cons b bs ih =>
    intro r p
    rw [hits, List.mem_append, mem_rowHits, ih]
    constructor
    · rintro (⟨j, h₁, h₂, h₃, h₄⟩ | ⟨k, j, h, h₁, h₂, h₃, h₄⟩)
      · exact ⟨0, j, by simp, h₁, h₂, by rw [h₃]; rfl, h₄⟩
      · exact ⟨k + 1, j, by simpa using h, h₁, by simpa using h₂, by rw [h₃]; congr 1; omega, h₄⟩
    · rintro ⟨k, j, h, h₁, h₂, h₃, h₄⟩
      cases k with
      | zero => exact .inl ⟨j, h₁, h₂, Fin.ext h₃, h₄⟩
      | succ k => exact .inr ⟨k, j, by simpa using h, h₁, by simpa using h₂, by rw [h₃]; congr 1; omega, h₄⟩

theorem nodup_rowHits (vx : Nat) (row : Fin 32) (b : Byte) : (rowHits vx row b).Nodup := by
  unfold rowHits
  refine (List.Nodup.filter _ List.nodup_range).map_on fun a ha c hc e => ?_
  simp only [List.mem_filter, List.mem_range] at ha hc
  have := congrArg (fun p => p.2.val) e
  simp only [wrapCol] at this
  omega

/-- No place is drawn on twice: a sprite is at most 8 wide and 15 high (R201). -/
theorem nodup_hits (vx vy : Nat) (bs : List Byte) : ∀ r : Nat, bs.length ≤ 32 → (hits vx vy r bs).Nodup := by
  induction bs with
  | nil => intro r _; simp [hits]
  | cons b bs ih =>
    intro r h
    simp only [List.length_cons] at h
    rw [hits, List.nodup_append]
    refine ⟨nodup_rowHits _ _ _, ih _ (by omega), fun p hp q hq e => ?_⟩
    subst e
    obtain ⟨j, -, -, h₃, -⟩ := mem_rowHits.1 hp
    obtain ⟨k, -, hk, -, -, g₃, -⟩ := mem_hits.1 hq
    have : p.1.val = (vy + r) % 32 := by rw [h₃]; rfl
    omega

/-- Drawing on distinct places flips exactly those. -/
theorem plot_fb (l : List (Fin 32 × Fin 64)) : ∀ k : Canvas, l.Nodup → ∀ (r : Fin 32) (c : Fin 64),
    (plot l k).fb[r][c] = (k.fb[r][c] ^^ decide ((r, c) ∈ l)) := by
  induction l with
  | nil => intro k _ r c; simp [plot]
  | cons p l ih =>
    intro k hn r c
    obtain ⟨hp, hn⟩ := List.nodup_cons.1 hn
    show (plot l (drawPixel p.1 p.2 k)).fb[r][c] = _
    rw [ih _ hn, drawPixel_fb]
    by_cases h : (r, c) = p
    · subst h; simp [hp]
    · have h' : ¬(r = p.1 ∧ c = p.2) := fun e => h (Prod.ext e.1 e.2)
      simp [h, h']

/-- Drawing on distinct places collides exactly where one of them was set. -/
theorem plot_collision (l : List (Fin 32 × Fin 64)) : ∀ k : Canvas, l.Nodup →
    ((plot l k).collision = true ↔ k.collision = true ∨ ∃ p ∈ l, k.fb[p.1][p.2] = true) := by
  induction l with
  | nil => intro k _; simp [plot]
  | cons p l ih =>
    intro k hn
    obtain ⟨hp, hn⟩ := List.nodup_cons.1 hn
    show (plot l (drawPixel p.1 p.2 k)).collision = true ↔ _
    have hne : ∀ q ∈ l, (drawPixel p.1 p.2 k).fb[q.1][q.2] = k.fb[q.1][q.2] := fun q hq => by
      rw [drawPixel_fb, if_neg]
      rintro ⟨e₁, e₂⟩
      exact hp (Prod.ext (x := q) (y := p) e₁ e₂ ▸ hq)
    have hex : (∃ q ∈ l, (drawPixel p.1 p.2 k).fb[q.1][q.2] = true) ↔ ∃ q ∈ l, k.fb[q.1][q.2] = true :=
      exists_congr fun q => and_congr_right fun hq => by rw [hne q hq]
    rw [ih _ hn, hex, drawPixel_collision]
    simp [or_assoc]

end Sys2Proof.Machine
end

