-- ==== Sys2Proof/Laws/Exec.lean ====
section
/-! SUPPORT. The instructions with more than one way to end: one lemma each that says every next state it can answer. -/

namespace Sys2Proof.Machine

/-- `00EE` (R150). -/
theorem execRet_eq_next {s t : State} : execRet s = .next t ↔
    (∃ h : 0 < s.sp.val, t = { s with
      pc := s.stack[s.sp.val - 1]'(by omega) + 2, sp := ⟨s.sp.val - 1, by omega⟩, result := .ok }) ∨
    (s.sp = 0 ∧ t = { s with
      mode := .halted (.stackUnderflow s.pc (encode .ret)), result := .fault (.stackUnderflow s.pc (encode .ret)) }) := by
  by_cases h : 0 < s.sp.val
  · have h0 : s.sp ≠ 0 := fun e => by rw [e] at h; exact absurd h (by decide)
    simp only [execRet, (pop_eq_some (s := s)).2 ⟨h, rfl, rfl⟩, jumpTo_eq_next]
    exact ⟨fun e => .inl ⟨h, e⟩, fun e => e.elim (fun ⟨_, e⟩ => e) fun ⟨e, _⟩ => absurd e h0⟩
  · have h0 : s.sp = 0 := Fin.ext (by simpa using h)
    simp only [execRet, (pop_eq_none (s := s)).2 h0, raiseFault_eq_next]
    exact ⟨fun e => .inr ⟨h0, e⟩, fun e => e.elim (fun ⟨h', _⟩ => absurd h' h) And.right⟩

/-- `2nnn` (R152). -/
theorem execCall_eq_next {nnn : Addr} {s t : State} : execCall nnn s = .next t ↔
    (∃ h : s.sp.val < 16, t = { s with
      pc := zextAddr nnn, sp := ⟨s.sp.val + 1, by omega⟩, stack := s.stack.set s.sp.val s.pc h, result := .ok }) ∨
    (s.sp = 16 ∧ t = { s with
      mode := .halted (.stackOverflow s.pc (encode (.call nnn))), result := .fault (.stackOverflow s.pc (encode (.call nnn))) }) := by
  by_cases h : s.sp.val < 16
  · have h0 : s.sp ≠ 16 := fun e => by rw [e] at h; exact absurd h (by decide)
    simp only [execCall, (push_eq_some (s := s)).2 ⟨h, rfl⟩, jumpTo_eq_next]
    exact ⟨fun e => .inl ⟨h, e⟩, fun e => e.elim (fun ⟨_, e⟩ => e) fun ⟨e, _⟩ => absurd e h0⟩
  · have h0 : s.sp = 16 := Fin.ext (by have := s.sp.isLt; show s.sp.val = 16; omega)
    simp only [execCall, (push_eq_none (s := s)).2 h0, raiseFault_eq_next]
    exact ⟨fun e => .inr ⟨h0, e⟩, fun e => e.elim (fun ⟨h', _⟩ => absurd h' h) And.right⟩

/-- The fault of a block access that does not fit in memory (R66, R304). -/
def blockFault (i : Instr) (s : State) : FaultRecord := .memoryFault s.pc (some (encode i)) (max s.iReg.toNat 4096)

/-- `Dxyn` (R201). -/
theorem execDrw_eq_next {x y : Reg} {n : Fin 16} {s t : State} : execDrw x y n s = .next t ↔
    ((n.val = 0 ∨ s.iReg.toNat + n.val ≤ 4096) ∧
      ∃ k, k = drawRows (s.getV x).toNat (s.getV y).toNat 0 (s.bytes s.iReg.toNat n.val) ⟨s.fb, false⟩ ∧
        t = { s.setV vf (flagByte k.collision) with fb := k.fb, pc := s.pc + 2, result := .ok }) ∨
    ((0 < n.val ∧ 4096 < s.iReg.toNat + n.val) ∧
      t = { s with mode := .halted (blockFault (.drw x y n) s), result := .fault (blockFault (.drw x y n) s) }) := by
  unfold execDrw
  cases h : badAddress s.iReg.toNat n.val with
  | none =>
    have := badAddress_eq_none.1 h
    have hn : ¬(0 < n.val ∧ 4096 < s.iReg.toNat + n.val) := by omega
    simp only [this, hn, true_and, false_and, or_false, advance_eq_next, exists_eq_left]; exact Iff.rfl
  | some a =>
    obtain ⟨h₁, h₂, rfl⟩ := badAddress_eq_some.1 h
    have hn : ¬(n.val = 0 ∨ s.iReg.toNat + n.val ≤ 4096) := by omega
    simp only [hn, h₁, h₂, true_and, false_and, false_or, raiseFault_eq_next, blockFault]

/-- `Fx33` (R232). -/
theorem execLdB_eq_next {x : Reg} {s t : State} : execLdB x s = .next t ↔
    (s.iReg.toNat + 3 ≤ 4096 ∧
      t = { s.storeBytes s.iReg.toNat (bcdDigits (s.getV x)) with pc := s.pc + 2, result := .ok }) ∨
    (4096 < s.iReg.toNat + 3 ∧
      t = { s with mode := .halted (blockFault (.ldB x) s), result := .fault (blockFault (.ldB x) s) }) := by
  unfold execLdB
  cases h : badAddress s.iReg.toNat 3 with
  | none =>
    have h₁ : s.iReg.toNat + 3 ≤ 4096 := (badAddress_eq_none.1 h).resolve_left (by decide)
    have hn : ¬4096 < s.iReg.toNat + 3 := by omega
    simp only [h₁, hn, true_and, false_and, or_false, advance_eq_next]; exact Iff.rfl
  | some a =>
    obtain ⟨-, h₂, rfl⟩ := badAddress_eq_some.1 h
    have hn : ¬s.iReg.toNat + 3 ≤ 4096 := by omega
    simp only [hn, h₂, true_and, false_and, false_or, raiseFault_eq_next, blockFault]

/-- `Fx55` (R233). -/
theorem execLdMemVx_eq_next {x : Reg} {s t : State} : execLdMemVx x s = .next t ↔
    (s.iReg.toNat + x.val ≤ 4095 ∧
      t = { s.storeBytes s.iReg.toNat (s.firstRegs x) with pc := s.pc + 2, result := .ok }) ∨
    (4095 < s.iReg.toNat + x.val ∧
      t = { s with mode := .halted (blockFault (.ldMemVx x) s), result := .fault (blockFault (.ldMemVx x) s) }) := by
  unfold execLdMemVx
  cases h : badAddress s.iReg.toNat (x.val + 1) with
  | none =>
    have h₁ : s.iReg.toNat + x.val ≤ 4095 := by have := badAddress_eq_none.1 h; omega
    have hn : ¬4095 < s.iReg.toNat + x.val := by omega
    simp only [h₁, hn, true_and, false_and, or_false, advance_eq_next]; exact Iff.rfl
  | some a =>
    obtain ⟨-, h₂, rfl⟩ := badAddress_eq_some.1 h
    have h₁ : 4095 < s.iReg.toNat + x.val := by omega
    have hn : ¬s.iReg.toNat + x.val ≤ 4095 := by omega
    simp only [hn, h₁, true_and, false_and, false_or, raiseFault_eq_next, blockFault]

/-- `Fx65` (R234). -/
theorem execLdVxMem_eq_next {x : Reg} {s t : State} : execLdVxMem x s = .next t ↔
    (s.iReg.toNat + x.val ≤ 4095 ∧ t = { s with v := s.loadRegs s.iReg.toNat x, pc := s.pc + 2, result := .ok }) ∨
    (4095 < s.iReg.toNat + x.val ∧
      t = { s with mode := .halted (blockFault (.ldVxMem x) s), result := .fault (blockFault (.ldVxMem x) s) }) := by
  unfold execLdVxMem
  cases h : badAddress s.iReg.toNat (x.val + 1) with
  | none =>
    have h₁ : s.iReg.toNat + x.val ≤ 4095 := by have := badAddress_eq_none.1 h; omega
    have hn : ¬4095 < s.iReg.toNat + x.val := by omega
    simp only [h₁, hn, true_and, false_and, or_false, advance_eq_next]
  | some a =>
    obtain ⟨-, h₂, rfl⟩ := badAddress_eq_some.1 h
    have h₁ : 4095 < s.iReg.toNat + x.val := by omega
    have hn : ¬s.iReg.toNat + x.val ≤ 4095 := by omega
    simp only [hn, h₁, true_and, false_and, false_or, raiseFault_eq_next, blockFault]

/-- `Fx1E` (R230). -/
theorem execAddI_eq_next {x : Reg} {s t : State} : execAddI x s = .next t ↔
    (s.config.fx1eVfOverflow = true ∧ t = { s.setV vf (flagByte (indexOverflow s.iReg (s.getV x))) with
      iReg := s.iReg + zextByte (s.getV x), pc := s.pc + 2, result := .ok }) ∨
    (s.config.fx1eVfOverflow = false ∧ t = { s with
      iReg := s.iReg + zextByte (s.getV x), pc := s.pc + 2, result := .ok }) := by
  unfold execAddI
  cases s.config.fx1eVfOverflow
  · simp only [Bool.false_eq_true, if_false, false_and, true_and, false_or, advance_eq_next]
  · simp only [Bool.true_eq_false, if_true, false_and, true_and, or_false, advance_eq_next]; exact Iff.rfl

end Sys2Proof.Machine
end

