-- ==== Sys2Proof/Laws/PerInstr.lean ====
section
/-! SUPPORT. One lemma per instruction, for the facts about an instruction as syntax: its encoding is its own row's. -/

namespace Sys2Proof.Laws.OwnRow

/-- Some row of the opcode map matches the instruction's word, and building from the word's fields gives the instruction back. -/
def Statement (i : Instr) : Prop :=
  ∃ r ∈ opcodeTable, encode i &&& r.mask = r.pat ∧ r.build (encode i) = i

theorem cls : Statement .cls :=
  ⟨opcodeTable[0], List.getElem_mem _, rfl, rfl⟩

theorem ret : Statement .ret :=
  ⟨opcodeTable[1], List.getElem_mem _, rfl, rfl⟩

theorem jp (nnn : Addr) : Statement (.jp nnn) :=
  ⟨opcodeTable[2], List.getElem_mem _, formatA_mask _ _, by simp [opcodeTable, opcodeRows1, opcodeRows2, opcodeRows3, opcodeRows4, encode]⟩

theorem call (nnn : Addr) : Statement (.call nnn) :=
  ⟨opcodeTable[3], List.getElem_mem _, formatA_mask _ _, by simp [opcodeTable, opcodeRows1, opcodeRows2, opcodeRows3, opcodeRows4, encode]⟩

theorem seImm (x : Reg) (kk : Byte) : Statement (.seImm x kk) :=
  ⟨opcodeTable[4], List.getElem_mem _, formatXK_mask _ _ _, by simp [opcodeTable, opcodeRows1, opcodeRows2, opcodeRows3, opcodeRows4, encode]⟩

theorem sneImm (x : Reg) (kk : Byte) : Statement (.sneImm x kk) :=
  ⟨opcodeTable[5], List.getElem_mem _, formatXK_mask _ _ _, by simp [opcodeTable, opcodeRows1, opcodeRows2, opcodeRows3, opcodeRows4, encode]⟩

theorem seReg (x y : Reg) : Statement (.seReg x y) :=
  ⟨opcodeTable[6], List.getElem_mem _, formatXYN_maskSub _ _ _ _, by simp [opcodeTable, opcodeRows1, opcodeRows2, opcodeRows3, opcodeRows4, encode]⟩

theorem ldImm (x : Reg) (kk : Byte) : Statement (.ldImm x kk) :=
  ⟨opcodeTable[7], List.getElem_mem _, formatXK_mask _ _ _, by simp [opcodeTable, opcodeRows1, opcodeRows2, opcodeRows3, opcodeRows4, encode]⟩

theorem addImm (x : Reg) (kk : Byte) : Statement (.addImm x kk) :=
  ⟨opcodeTable[8], List.getElem_mem _, formatXK_mask _ _ _, by simp [opcodeTable, opcodeRows1, opcodeRows2, opcodeRows3, opcodeRows4, encode]⟩

theorem ldReg (x y : Reg) : Statement (.ldReg x y) :=
  ⟨opcodeTable[9], List.getElem_mem _, formatXYN_maskSub _ _ _ _, by simp [opcodeTable, opcodeRows1, opcodeRows2, opcodeRows3, opcodeRows4, encode]⟩

theorem orReg (x y : Reg) : Statement (.orReg x y) :=
  ⟨opcodeTable[10], List.getElem_mem _, formatXYN_maskSub _ _ _ _, by simp [opcodeTable, opcodeRows1, opcodeRows2, opcodeRows3, opcodeRows4, encode]⟩

theorem andReg (x y : Reg) : Statement (.andReg x y) :=
  ⟨opcodeTable[11], List.getElem_mem _, formatXYN_maskSub _ _ _ _, by simp [opcodeTable, opcodeRows1, opcodeRows2, opcodeRows3, opcodeRows4, encode]⟩

theorem xorReg (x y : Reg) : Statement (.xorReg x y) :=
  ⟨opcodeTable[12], List.getElem_mem _, formatXYN_maskSub _ _ _ _, by simp [opcodeTable, opcodeRows1, opcodeRows2, opcodeRows3, opcodeRows4, encode]⟩

theorem addReg (x y : Reg) : Statement (.addReg x y) :=
  ⟨opcodeTable[13], List.getElem_mem _, formatXYN_maskSub _ _ _ _, by simp [opcodeTable, opcodeRows1, opcodeRows2, opcodeRows3, opcodeRows4, encode]⟩

theorem sub (x y : Reg) : Statement (.sub x y) :=
  ⟨opcodeTable[14], List.getElem_mem _, formatXYN_maskSub _ _ _ _, by simp [opcodeTable, opcodeRows1, opcodeRows2, opcodeRows3, opcodeRows4, encode]⟩

theorem shr (x y : Reg) : Statement (.shr x y) :=
  ⟨opcodeTable[15], List.getElem_mem _, formatXYN_maskSub _ _ _ _, by simp [opcodeTable, opcodeRows1, opcodeRows2, opcodeRows3, opcodeRows4, encode]⟩

theorem subn (x y : Reg) : Statement (.subn x y) :=
  ⟨opcodeTable[16], List.getElem_mem _, formatXYN_maskSub _ _ _ _, by simp [opcodeTable, opcodeRows1, opcodeRows2, opcodeRows3, opcodeRows4, encode]⟩

theorem shl (x y : Reg) : Statement (.shl x y) :=
  ⟨opcodeTable[17], List.getElem_mem _, formatXYN_maskSub _ _ _ _, by simp [opcodeTable, opcodeRows1, opcodeRows2, opcodeRows3, opcodeRows4, encode]⟩

theorem sneReg (x y : Reg) : Statement (.sneReg x y) :=
  ⟨opcodeTable[18], List.getElem_mem _, formatXYN_maskSub _ _ _ _, by simp [opcodeTable, opcodeRows1, opcodeRows2, opcodeRows3, opcodeRows4, encode]⟩

theorem ldI (nnn : Addr) : Statement (.ldI nnn) :=
  ⟨opcodeTable[19], List.getElem_mem _, formatA_mask _ _, by simp [opcodeTable, opcodeRows1, opcodeRows2, opcodeRows3, opcodeRows4, encode]⟩

theorem jpV0 (nnn : Addr) : Statement (.jpV0 nnn) :=
  ⟨opcodeTable[20], List.getElem_mem _, formatA_mask _ _, by simp [opcodeTable, opcodeRows1, opcodeRows2, opcodeRows3, opcodeRows4, encode]⟩

theorem rnd (x : Reg) (kk : Byte) : Statement (.rnd x kk) :=
  ⟨opcodeTable[21], List.getElem_mem _, formatXK_mask _ _ _, by simp [opcodeTable, opcodeRows1, opcodeRows2, opcodeRows3, opcodeRows4, encode]⟩

theorem drw (x y : Reg) (n : Fin 16) : Statement (.drw x y n) :=
  ⟨opcodeTable[22], List.getElem_mem _, formatXYN_mask _ _ _ _, by simp [opcodeTable, opcodeRows1, opcodeRows2, opcodeRows3, opcodeRows4, encode]⟩

theorem skp (x : Reg) : Statement (.skp x) :=
  ⟨opcodeTable[23], List.getElem_mem _, formatXK_maskSub _ _ _, by simp [opcodeTable, opcodeRows1, opcodeRows2, opcodeRows3, opcodeRows4, encode]⟩

theorem sknp (x : Reg) : Statement (.sknp x) :=
  ⟨opcodeTable[24], List.getElem_mem _, formatXK_maskSub _ _ _, by simp [opcodeTable, opcodeRows1, opcodeRows2, opcodeRows3, opcodeRows4, encode]⟩

theorem ldVxDT (x : Reg) : Statement (.ldVxDT x) :=
  ⟨opcodeTable[25], List.getElem_mem _, formatXK_maskSub _ _ _, by simp [opcodeTable, opcodeRows1, opcodeRows2, opcodeRows3, opcodeRows4, encode]⟩

theorem ldVxK (x : Reg) : Statement (.ldVxK x) :=
  ⟨opcodeTable[26], List.getElem_mem _, formatXK_maskSub _ _ _, by simp [opcodeTable, opcodeRows1, opcodeRows2, opcodeRows3, opcodeRows4, encode]⟩

theorem ldDTVx (x : Reg) : Statement (.ldDTVx x) :=
  ⟨opcodeTable[27], List.getElem_mem _, formatXK_maskSub _ _ _, by simp [opcodeTable, opcodeRows1, opcodeRows2, opcodeRows3, opcodeRows4, encode]⟩

theorem ldSTVx (x : Reg) : Statement (.ldSTVx x) :=
  ⟨opcodeTable[28], List.getElem_mem _, formatXK_maskSub _ _ _, by simp [opcodeTable, opcodeRows1, opcodeRows2, opcodeRows3, opcodeRows4, encode]⟩

theorem addI (x : Reg) : Statement (.addI x) :=
  ⟨opcodeTable[29], List.getElem_mem _, formatXK_maskSub _ _ _, by simp [opcodeTable, opcodeRows1, opcodeRows2, opcodeRows3, opcodeRows4, encode]⟩

theorem ldF (x : Reg) : Statement (.ldF x) :=
  ⟨opcodeTable[30], List.getElem_mem _, formatXK_maskSub _ _ _, by simp [opcodeTable, opcodeRows1, opcodeRows2, opcodeRows3, opcodeRows4, encode]⟩

theorem ldB (x : Reg) : Statement (.ldB x) :=
  ⟨opcodeTable[31], List.getElem_mem _, formatXK_maskSub _ _ _, by simp [opcodeTable, opcodeRows1, opcodeRows2, opcodeRows3, opcodeRows4, encode]⟩

theorem ldMemVx (x : Reg) : Statement (.ldMemVx x) :=
  ⟨opcodeTable[32], List.getElem_mem _, formatXK_maskSub _ _ _, by simp [opcodeTable, opcodeRows1, opcodeRows2, opcodeRows3, opcodeRows4, encode]⟩

theorem ldVxMem (x : Reg) : Statement (.ldVxMem x) :=
  ⟨opcodeTable[33], List.getElem_mem _, formatXK_maskSub _ _ _, by simp [opcodeTable, opcodeRows1, opcodeRows2, opcodeRows3, opcodeRows4, encode]⟩

end Sys2Proof.Laws.OwnRow
end

