-- ==== Sys2Proof/Laws/Step.lean ====
section
/-! SUPPORT. What one step does, case by case: which event it is, what a `step` event does in each mode, and how an instruction ends. -/

namespace Sys2Proof.Machine

/-! ## Which event a step is -/

/-- With an event queued, the step is that event on the state without it. -/
theorem step_queued {s : State} {e : Event} {rest : List Event} (h : s.inputs = e :: rest) :
    step s = applyEvent e { s with inputs := rest } := by
  simp only [step, nextEvent, h]

/-- With nothing queued, the step is a `step` event with the next free byte. -/
theorem step_idle {s : State} (h : s.inputs = []) :
    step s = stepEvent (Config.freeByte s.draws) { s with draws := s.draws + 1 } := by
  simp only [step, nextEvent, h]

/-! ## The `step` event in each mode -/

theorem stepEvent_running {s : State} (b : Byte) (h : s.mode = .running) : stepEvent b s = fetchAndRun (s.beginStep b) := by
  simp only [stepEvent, h]

theorem stepEvent_awaitingKey {s : State} {r : Reg} (b : Byte) (h : s.mode = .awaitingKey r) :
    stepEvent b s = .next { s.beginStep b with result := .waiting } := by
  simp only [stepEvent, h]

theorem stepEvent_halted {s : State} {f : FaultRecord} (b : Byte) (h : s.mode = .halted f) :
    stepEvent b s = .next { s.beginStep b with result := .halted f } := by
  simp only [stepEvent, h]

@[simp] theorem beginStep_fetch (s : State) (b : Byte) : (s.beginStep b).fetch = s.fetch := rfl

theorem fetchAndRun_error {s : State} {a : Nat} (h : s.fetch = .error a) :
    fetchAndRun s = raiseFault (.memoryFault s.pc none a) s := by
  simp only [fetchAndRun, h]

theorem fetchAndRun_instr {s : State} {w : Word} {i : Instr} (h : s.fetch = .ok w) (hd : decode w = .instr i) :
    fetchAndRun s = exec i (s.traced w (mnemonicOf i)) := by
  simp only [fetchAndRun, h, hd]

theorem fetchAndRun_unmatched {s : State} {w : Word} {g : UnmatchedGroup} (h : s.fetch = .ok w) (hd : decode w = .unmatched g) :
    fetchAndRun s = unmatchedWord w (s.traced w unmatchedName) := by
  simp only [fetchAndRun, h, hd]

/-- The three ways a `step` event in RUNNING can go (R122): a fetch fault, an unmatched word, an instruction. -/
theorem fetchAndRun_cases (s : State) :
    (∃ a, s.fetch = .error a ∧ fetchAndRun s = raiseFault (.memoryFault s.pc none a) s) ∨
    (∃ w g, s.fetch = .ok w ∧ decode w = .unmatched g ∧ fetchAndRun s = unmatchedWord w (s.traced w unmatchedName)) ∨
    (∃ w i, s.fetch = .ok w ∧ decode w = .instr i ∧ fetchAndRun s = exec i (s.traced w (mnemonicOf i))) := by
  cases h : s.fetch with
  | error a => exact .inl ⟨a, rfl, fetchAndRun_error h⟩
  | ok w =>
    cases hd : decode w with
    | instr i => exact .inr (.inr ⟨w, i, rfl, hd, fetchAndRun_instr h hd⟩)
    | unmatched g => exact .inr (.inl ⟨w, g, rfl, hd, fetchAndRun_unmatched h hd⟩)

/-- A `step` event in RUNNING that fetches an instruction is exec of it (R122). -/
theorem stepEvent_instr {s : State} {w : Word} {i : Instr} (b : Byte) (hm : s.mode = .running) (h : s.fetch = .ok w)
    (hd : decode w = .instr i) :
    stepEvent b s = exec i { s with rnd := b, romLoadable := false, trace := some ⟨w, mnemonicOf i⟩ } :=
  (stepEvent_running b hm).trans (fetchAndRun_instr (s := s.beginStep b) h hd)

/-- A `step` event in RUNNING that fetches an unmatched word (R301). -/
theorem stepEvent_unmatched {s : State} {w : Word} {g : UnmatchedGroup} (b : Byte) (hm : s.mode = .running) (h : s.fetch = .ok w)
    (hd : decode w = .unmatched g) :
    stepEvent b s = unmatchedWord w { s with rnd := b, romLoadable := false, trace := some ⟨w, unmatchedName⟩ } :=
  (stepEvent_running b hm).trans (fetchAndRun_unmatched (s := s.beginStep b) h hd)

/-- A `step` event in RUNNING whose fetch is out of range (R122, R304). -/
theorem stepEvent_fetchFault {s : State} {a : Nat} (b : Byte) (hm : s.mode = .running) (h : s.fetch = .error a) :
    stepEvent b s = raiseFault (.memoryFault s.pc none a) { s with rnd := b, romLoadable := false, trace := none } :=
  (stepEvent_running b hm).trans (fetchAndRun_error (s := s.beginStep b) h)

/-! ## Runs of several steps -/

theorem run_zero (s : State) : core.run 0 s = .next s := rfl

/-- A run takes its first step and goes on from there. -/
theorem run_succ {s t : State} (n : Nat) (h : step s = .next t) : core.run (n + 1) s = core.run n t := by
  have h' : core.step s = .next t := h
  simp only [Host.Core.run, h']

/-! ## The `key_down` event, case by case (R213) -/

theorem keyDown_held {s : State} {k : Key} (h : s.keys[k] = true) : keyDown k s = s := by
  simp only [keyDown, h, if_true]

theorem keyDown_completes {s : State} {k : Key} {r : Reg} (h : s.keys[k] = false) (hm : s.mode = .awaitingKey r) :
    keyDown k s = completeKeyWait r k { s with keys := s.keys.set k.val true k.isLt } := by
  simp only [keyDown, h, hm, Bool.false_eq_true, if_false]

theorem keyDown_sets {s : State} {k : Key} (h : s.keys[k] = false) (hm : ∀ r, s.mode ≠ .awaitingKey r) :
    keyDown k s = { s with keys := s.keys.set k.val true k.isLt } := by
  cases e : s.mode with
  | awaitingKey r => exact absurd e (hm r)
  | running => simp only [keyDown, h, e, Bool.false_eq_true, if_false]
  | halted f => simp only [keyDown, h, e, Bool.false_eq_true, if_false]

/-! ## How an instruction ends -/

/-- An instruction that ends by advancing, jumping or skipping, from a state that differs from `s` in its data only. -/
structure Ended (s t : State) : Prop where
  result : t.result = .ok
  mode : t.mode = s.mode
  keys : t.keys = s.keys
  config : t.config = s.config
  trace : t.trace = s.trace
  romLoadable : t.romLoadable = s.romLoadable
  rnd : t.rnd = s.rnd
  draws : t.draws = s.draws
  inputs : t.inputs = s.inputs

/-- Every instruction answers a next state, in one of three ways: it ends with Ok, it starts a key wait, or it raises one fault. -/
theorem exec_cases (i : Instr) (s : State) :
    (∃ t, exec i s = .next t ∧ Ended s t) ∨
    (∃ x, i = .ldVxK x ∧ exec i s = .next { s with mode := .awaitingKey x, result := .waiting }) ∨
    (∃ f : FaultRecord, exec i s = raiseFault f s ∧
      ((f = .stackOverflow s.pc (encode i) ∧ (∃ nnn, i = .call nnn) ∧ s.sp = 16) ∨
       (f = .stackUnderflow s.pc (encode i) ∧ i = .ret ∧ s.sp = 0) ∨
       (f = .memoryFault s.pc (some (encode i)) (max s.iReg.toNat 4096) ∧
         ((∃ x y n, i = .drw x y n) ∨ ∃ x, i = .ldB x ∨ i = .ldMemVx x ∨ i = .ldVxMem x)))) := by
  have blockFault : ∀ {count a : Nat}, badAddress s.iReg.toNat count = some a → a = max s.iReg.toNat 4096 :=
    fun h => (badAddress_eq_some.1 h).2.2
  cases i with
  | ret =>
    cases h : s.pop with
    | none => exact .inr (.inr ⟨_, by simp only [exec, execRet, h], .inr (.inl ⟨rfl, rfl, pop_eq_none.1 h⟩)⟩)
    | some p =>
      obtain ⟨w, u⟩ := p
      refine .inl ⟨_, by simp only [exec, execRet, h]; rfl, ?_⟩
      obtain ⟨-, -, rfl⟩ := pop_eq_some.1 h
      constructor <;> rfl
  | call nnn =>
    cases h : s.push s.pc with
    | none => exact .inr (.inr ⟨_, by simp only [exec, execCall, h], .inl ⟨rfl, ⟨nnn, rfl⟩, push_eq_none.1 h⟩⟩)
    | some u =>
      refine .inl ⟨_, by simp only [exec, execCall, h]; rfl, ?_⟩
      obtain ⟨-, rfl⟩ := push_eq_some.1 h
      constructor <;> rfl
  | drw x y n =>
    cases h : badAddress s.iReg.toNat n.val with
    | some a =>
      refine .inr (.inr ⟨_, by simp only [exec, execDrw, h]; rfl, .inr (.inr ⟨?_, .inl ⟨x, y, n, rfl⟩⟩)⟩)
      rw [blockFault h]
    | none => exact .inl ⟨_, by simp only [exec, execDrw, h]; rfl, by constructor <;> rfl⟩
  | ldB x =>
    cases h : badAddress s.iReg.toNat 3 with
    | some a =>
      refine .inr (.inr ⟨_, by simp only [exec, execLdB, h]; rfl, .inr (.inr ⟨?_, .inr ⟨x, .inl rfl⟩⟩)⟩)
      rw [blockFault h]
    | none => exact .inl ⟨_, by simp only [exec, execLdB, h]; rfl, by constructor <;> rfl⟩
  | ldMemVx x =>
    cases h : badAddress s.iReg.toNat (x.val + 1) with
    | some a =>
      refine .inr (.inr ⟨_, by simp only [exec, execLdMemVx, h]; rfl, .inr (.inr ⟨?_, .inr ⟨x, .inr (.inl rfl)⟩⟩)⟩)
      rw [blockFault h]
    | none => exact .inl ⟨_, by simp only [exec, execLdMemVx, h]; rfl, by constructor <;> rfl⟩
  | ldVxMem x =>
    cases h : badAddress s.iReg.toNat (x.val + 1) with
    | some a =>
      refine .inr (.inr ⟨_, by simp only [exec, execLdVxMem, h]; rfl, .inr (.inr ⟨?_, .inr ⟨x, .inr (.inr rfl)⟩⟩)⟩)
      rw [blockFault h]
    | none => exact .inl ⟨_, by simp only [exec, execLdVxMem, h]; rfl, by constructor <;> rfl⟩
  | addI x =>
    cases h : s.config.fx1eVfOverflow with
    | true => exact .inl ⟨_, by simp only [exec, execAddI, h, if_true]; rfl, by constructor <;> rfl⟩
    | false =>
      exact .inl ⟨_, by simp only [exec, execAddI, h, Bool.false_eq_true, if_false]; rfl, by constructor <;> rfl⟩
  | ldVxK x => exact .inr (.inl ⟨x, rfl, rfl⟩)
  | cls => exact .inl ⟨_, rfl, by constructor <;> rfl⟩
  | jp nnn => exact .inl ⟨_, rfl, by constructor <;> rfl⟩
  | seImm x kk => exact .inl ⟨_, rfl, by constructor <;> rfl⟩
  | sneImm x kk => exact .inl ⟨_, rfl, by constructor <;> rfl⟩
  | seReg x y => exact .inl ⟨_, rfl, by constructor <;> rfl⟩
  | ldImm x kk => exact .inl ⟨_, rfl, by constructor <;> rfl⟩
  | addImm x kk => exact .inl ⟨_, rfl, by constructor <;> rfl⟩
  | ldReg x y => exact .inl ⟨_, rfl, by constructor <;> rfl⟩
  | orReg x y => exact .inl ⟨_, rfl, by constructor <;> rfl⟩
  | andReg x y => exact .inl ⟨_, rfl, by constructor <;> rfl⟩
  | xorReg x y => exact .inl ⟨_, rfl, by constructor <;> rfl⟩
  | addReg x y => exact .inl ⟨_, rfl, by constructor <;> rfl⟩
  | sub x y => exact .inl ⟨_, rfl, by constructor <;> rfl⟩
  | shr x y => exact .inl ⟨_, rfl, by constructor <;> rfl⟩
  | subn x y => exact .inl ⟨_, rfl, by constructor <;> rfl⟩
  | shl x y => exact .inl ⟨_, rfl, by constructor <;> rfl⟩
  | sneReg x y => exact .inl ⟨_, rfl, by constructor <;> rfl⟩
  | ldI nnn => exact .inl ⟨_, rfl, by constructor <;> rfl⟩
  | jpV0 nnn => exact .inl ⟨_, rfl, by constructor <;> rfl⟩
  | rnd x kk => exact .inl ⟨_, rfl, by constructor <;> rfl⟩
  | skp x => exact .inl ⟨_, rfl, by constructor <;> rfl⟩
  | sknp x => exact .inl ⟨_, rfl, by constructor <;> rfl⟩
  | ldVxDT x => exact .inl ⟨_, rfl, by constructor <;> rfl⟩
  | ldDTVx x => exact .inl ⟨_, rfl, by constructor <;> rfl⟩
  | ldSTVx x => exact .inl ⟨_, rfl, by constructor <;> rfl⟩
  | ldF x => exact .inl ⟨_, rfl, by constructor <;> rfl⟩

end Sys2Proof.Machine
end

