-- ==== Sys2Proof/Tests/Slice0.lean ====
section
/-! SUPPORT. Tests: the checks of WellFormed refuse what is ill formed, one word of each instruction written out from its encoding, the
vectors of spec/95_test_vectors.md, and for each statement with hypotheses a state that meets them. The expected values are the spec's. -/

namespace Sys2Proof.Tests

open Sys2Proof Sys2Proof.Machine

/-! ## WellFormed: an ill-formed term for each check is refused (R6, R77) -/

theorem test_fontBase_past_the_reserved_region_is_refused : ¬ { Config.default with fontBase := 0x1B1 : Config }.WellFormed := by decide
theorem test_fontBase_at_the_last_place_is_accepted : { Config.default with fontBase := 0x1B0 : Config }.WellFormed := by decide
theorem test_rom_of_3585_bytes_is_refused : ¬ RomFits (List.replicate 3585 0x00) := by
  simp only [RomFits, List.length_replicate]; decide
theorem test_rom_of_3584_bytes_is_accepted : RomFits (List.replicate 3584 0x00) := by
  simp only [RomFits, List.length_replicate]; decide

/-! ## Decoding: one word per instruction, nibble by nibble from R93 and R96 -/

theorem test_decode_cls : decode 0b0000000011100000 = .instr (.cls) := by decide
theorem test_decode_ret : decode 0b0000000011101110 = .instr (.ret) := by decide
theorem test_decode_jp : decode 0b0001101010111100 = .instr (.jp 0xABC) := by decide
theorem test_decode_call : decode 0b0010101010111100 = .instr (.call 0xABC) := by decide
theorem test_decode_seImm : decode 0b0011000101000010 = .instr (.seImm 1 0x42) := by decide
theorem test_decode_sneImm : decode 0b0100000101000010 = .instr (.sneImm 1 0x42) := by decide
theorem test_decode_seReg : decode 0b0101101010110000 = .instr (.seReg 10 11) := by decide
theorem test_decode_ldImm : decode 0b0110101001000010 = .instr (.ldImm 10 0x42) := by decide
theorem test_decode_addImm : decode 0b0111000111111111 = .instr (.addImm 1 0xFF) := by decide
theorem test_decode_ldReg : decode 0b1000111100010000 = .instr (.ldReg 15 1) := by decide
theorem test_decode_orReg : decode 0b1000000100100001 = .instr (.orReg 1 2) := by decide
theorem test_decode_andReg : decode 0b1000000100100010 = .instr (.andReg 1 2) := by decide
theorem test_decode_xorReg : decode 0b1000000100100011 = .instr (.xorReg 1 2) := by decide
theorem test_decode_addReg : decode 0b1000101010110100 = .instr (.addReg 10 11) := by decide
theorem test_decode_sub : decode 0b1000000100100101 = .instr (.sub 1 2) := by decide
theorem test_decode_shr : decode 0b1000000100100110 = .instr (.shr 1 2) := by decide
theorem test_decode_subn : decode 0b1000000100100111 = .instr (.subn 1 2) := by decide
theorem test_decode_shl : decode 0b1000101010111110 = .instr (.shl 10 11) := by decide
theorem test_decode_sneReg : decode 0b1001000100100000 = .instr (.sneReg 1 2) := by decide
theorem test_decode_ldI : decode 0b1010001011110000 = .instr (.ldI 0x2F0) := by decide
theorem test_decode_jpV0 : decode 0b1011111111111111 = .instr (.jpV0 0xFFF) := by decide
theorem test_decode_rnd : decode 0b1100000100001111 = .instr (.rnd 1 0x0F) := by decide
theorem test_decode_drw : decode 0b1101000100101010 = .instr (.drw 1 2 10) := by decide
theorem test_decode_skp : decode 0b1110001110011110 = .instr (.skp 3) := by decide
theorem test_decode_sknp : decode 0b1110001110100001 = .instr (.sknp 3) := by decide
theorem test_decode_ldVxDT : decode 0b1111000100000111 = .instr (.ldVxDT 1) := by decide
theorem test_decode_ldVxK : decode 0b1111110000001010 = .instr (.ldVxK 12) := by decide
theorem test_decode_ldDTVx : decode 0b1111000100010101 = .instr (.ldDTVx 1) := by decide
theorem test_decode_ldSTVx : decode 0b1111000100011000 = .instr (.ldSTVx 1) := by decide
theorem test_decode_addI : decode 0b1111000100011110 = .instr (.addI 1) := by decide
theorem test_decode_ldF : decode 0b1111000100101001 = .instr (.ldF 1) := by decide
theorem test_decode_ldB : decode 0b1111000100110011 = .instr (.ldB 1) := by decide
theorem test_decode_ldMemVx : decode 0b1111001001010101 = .instr (.ldMemVx 2) := by decide
theorem test_decode_ldVxMem : decode 0b1111001001100101 = .instr (.ldVxMem 2) := by decide

/-- Vectors 2.1: a word outside the map for each group of R97, and the swapped bytes of `F00A`. -/
theorem test_decode_unmatched :
    decode 0x0AF0 = .unmatched .family0 ∧ decode 0x5AB1 = .unmatched .family5 ∧ decode 0x8AB8 = .unmatched .family8 ∧
    decode 0x9ABF = .unmatched .family9 ∧ decode 0xE39F = .unmatched .familyE ∧ decode 0xFC0B = .unmatched .familyF := by decide

/-- R90: one byte is no instruction. -/
theorem test_decode_one_byte : decodeBytes [0x12] = .tooFewBytes := by decide

/-! ## One step on a small state -/

/-- The registers, given as pairs of number and value, the others zero. -/
def regs (l : List (Reg × Byte)) : Vector Byte 16 :=
  l.foldl (fun v p => v.set p.1.val p.2 p.1.isLt) (Vector.replicate 16 0x00)

/-- The reset state with the word `w` at 0x200. -/
def start (w : Word) : State := placeWord w State.reset

/-- A test of what the `step` event with the free byte 0xA7 leaves of a state. -/
def after (s : State) (p : State → Bool) : Bool :=
  match stepEvent 0xA7 s with
  | .next t => p t
  | .fault _ => false
  | .refused _ => false

/-- Of the pixels named, given as pairs of row and column, the first ones are set and the others are clear. -/
def lit (s : State) (set clear : List (Fin 32 × Fin 64)) : Bool :=
  (set.all fun p => s.pixel p.1 p.2) && clear.all fun p => !s.pixel p.1 p.2

/-- The framebuffer with the given pixels set. -/
def screen (l : List (Fin 32 × Fin 64)) : Framebuffer :=
  l.foldl (fun fb p => fb.set p.1.val (fb[p.1].set p.2.val true p.2.isLt) p.1.isLt) blankFb

/-! Vectors 2.2, flow -/

theorem test_jp : after (start 0x1ABC) (fun t => t.pc == 0x0ABC && t.result == .ok) = true := by decide
theorem test_call_saves_its_own_address :
    after { start 0x2ABC with sp := 15 : State }
      (fun t => t.pc == 0x0ABC && t.sp == 16 && t.stack[15] == 0x0200) = true := by decide
theorem test_call_on_a_full_stack :
    after { start 0x2ABC with sp := 16 : State }
      (fun t => t.pc == 0x0200 && t.sp == 16 && t.mode == .halted (.stackOverflow 0x0200 0x2ABC)) = true := by decide
theorem test_ret :
    after { start 0x00EE with sp := 1, stack := Vector.replicate 16 0x0204 : State }
      (fun t => t.pc == 0x0206 && t.sp == 0 && t.stack[0] == 0x0204) = true := by decide
theorem test_ret_on_an_empty_stack :
    after (start 0x00EE)
      (fun t => t.pc == 0x0200 && t.result == .fault (.stackUnderflow 0x0200 0x00EE)) = true := by decide
theorem test_jpV0_is_not_reduced : after { start 0xBFFF with v := regs [(0, 0xFF)] : State } (fun t => t.pc == 0x10FE) = true := by decide

/-! Vectors 2.3, skips -/

theorem test_seImm_skips : after { start 0x3142 with v := regs [(1, 0x42)] : State } (fun t => t.pc == 0x0204) = true := by decide
theorem test_seImm_does_not_skip : after { start 0x3142 with v := regs [(1, 0x43)] : State } (fun t => t.pc == 0x0202) = true := by decide
theorem test_sneImm_does_not_skip : after { start 0x4142 with v := regs [(1, 0x42)] : State } (fun t => t.pc == 0x0202) = true := by decide
theorem test_sneImm_skips : after { start 0x4142 with v := regs [(1, 0x43)] : State } (fun t => t.pc == 0x0204) = true := by decide
theorem test_seReg_skips : after { start 0x5120 with v := regs [(1, 7), (2, 7)] : State } (fun t => t.pc == 0x0204) = true := by decide
theorem test_seReg_does_not_skip :
    after { start 0x5120 with v := regs [(1, 7), (2, 8)] : State }
      (fun t => t.pc == 0x0202) = true := by decide
theorem test_sneReg_does_not_skip :
    after { start 0x9120 with v := regs [(1, 7), (2, 7)] : State }
      (fun t => t.pc == 0x0202) = true := by decide
theorem test_sneReg_skips : after { start 0x9120 with v := regs [(1, 7), (2, 8)] : State } (fun t => t.pc == 0x0204) = true := by decide

/-! Vectors 2.4, constants -/

theorem test_ldImm_into_VF :
    after { start 0x6F07 with v := regs [(15, 1)] : State }
      (fun t => t.v == regs [(15, 7)] && t.pc == 0x0202) = true := by decide
theorem test_addImm_wraps_without_a_flag :
    after { start 0x7101 with v := regs [(1, 0xFF), (15, 0)] : State }
      (fun t => t.v == regs [] && t.pc == 0x0202) = true := by decide
theorem test_ldI : after (start 0xAFFF) (fun t => t.iReg == 0x0FFF && t.pc == 0x0202) = true := by decide
theorem test_rnd_masks_the_free_byte : after (start 0xC10F) (fun t => t.v == regs [(1, 0x07)]) = true := by decide

/-! Vectors 2.5, arithmetic and logic -/

theorem test_ldReg :
    after { start 0x8120 with v := regs [(1, 0x11), (2, 0x22), (15, 0xAB)] : State }
      (fun t => t.v == regs [(1, 0x22), (2, 0x22), (15, 0xAB)]) = true := by decide
theorem test_orReg :
    after { start 0x8121 with v := regs [(1, 0xF0), (2, 0x0F), (15, 0xAB)] : State }
      (fun t => t.v == regs [(1, 0xFF), (2, 0x0F), (15, 0xAB)]) = true := by decide
theorem test_andReg :
    after { start 0x8122 with v := regs [(1, 0xF0), (2, 0x3C), (15, 0xAB)] : State }
      (fun t => t.v == regs [(1, 0x30), (2, 0x3C), (15, 0xAB)]) = true := by decide
theorem test_xorReg :
    after { start 0x8123 with v := regs [(1, 0xFF), (2, 0x0F), (15, 0xAB)] : State }
      (fun t => t.v == regs [(1, 0xF0), (2, 0x0F), (15, 0xAB)]) = true := by decide
theorem test_addReg_carries :
    after { start 0x8AB4 with v := regs [(10, 0xFF), (11, 0x01)] : State }
      (fun t => t.v == regs [(11, 0x01), (15, 1)]) = true := by decide
theorem test_addReg_into_VF_keeps_the_sum :
    after { start 0x8F14 with v := regs [(15, 0x01), (1, 0x01)] : State }
      (fun t => t.v == regs [(1, 0x01), (15, 0x02)]) = true := by decide
theorem test_sub_borrows :
    after { start 0x8AB5 with v := regs [(10, 0x01), (11, 0x02)] : State }
      (fun t => t.v == regs [(10, 0xFF), (11, 0x02), (15, 0)]) = true := by decide
theorem test_sub_of_VF_uses_the_old_VF :
    after { start 0x81F5 with v := regs [(1, 0x05), (15, 0x07)] : State }
      (fun t => t.v == regs [(1, 0xFE), (15, 0x00)]) = true := by decide
theorem test_shr :
    after { start 0x8AB6 with v := regs [(10, 0x81), (11, 0xFF)] : State }
      (fun t => t.v == regs [(10, 0x40), (11, 0xFF), (15, 1)]) = true := by decide
theorem test_shr_of_VF_keeps_the_result :
    after { start 0x8F06 with v := regs [(15, 0x02)] : State }
      (fun t => t.v == regs [(15, 0x01)]) = true := by decide
theorem test_subn_borrows :
    after { start 0x8127 with v := regs [(1, 0x05), (2, 0x03), (15, 1)] : State }
      (fun t => t.v == regs [(1, 0xFE), (2, 0x03), (15, 0)]) = true := by decide
theorem test_subn :
    after { start 0x8127 with v := regs [(1, 0x03), (2, 0x05)] : State }
      (fun t => t.v == regs [(1, 0x02), (2, 0x05), (15, 1)]) = true := by decide
theorem test_shl :
    after { start 0x8ABE with v := regs [(10, 0x81), (11, 0x77)] : State }
      (fun t => t.v == regs [(10, 0x02), (11, 0x77), (15, 1)]) = true := by decide

/-! Vectors 2.6, display -/

theorem test_cls :
    after { start 0x00E0 with fb := screen [(5, 5), (31, 63)], v := regs [(15, 1)] : State }
      (fun t => lit t [] [(5, 5), (31, 63)] && t.v == regs [(15, 1)]) = true := by decide
theorem test_drw_wraps_each_pixel :
    after { start 0xD011 with v := regs [(0, 62), (1, 31)], iReg := 0x0300, mem := [(0x200, 0xD0), (0x201, 0x11), (0x300, 0xF0)] : State }
      (fun t => lit t [(31, 62), (31, 63), (31, 0), (31, 1)] [(31, 61), (31, 2), (0, 0), (0, 62)] && t.getV 15 == 0) = true := by decide
theorem test_drw_collides :
    after { start 0xD011 with fb := screen [(0, 0), (0, 1)], iReg := 0x0300, mem := [(0x200, 0xD0), (0x201, 0x11), (0x300, 0xA0)] : State }
      (fun t => lit t [(0, 1), (0, 2)] [(0, 0), (0, 3), (1, 0)] && t.getV 15 == 1) = true := by decide

/-! Vectors 2.7, keypad -/

/-- The keys, given as those that are down. -/
def down (l : List Key) : Vector Bool 16 := l.foldl (fun v k => v.set k.val true k.isLt) (Vector.replicate 16 false)

theorem test_skp_takes_the_low_nibble :
    after { start 0xE19E with v := regs [(1, 0x15)], keys := down [5] : State }
      (fun t => t.pc == 0x0204) = true := by decide
theorem test_skp_does_not_skip :
    after { start 0xE19E with v := regs [(1, 0x05)], keys := down [4] : State }
      (fun t => t.pc == 0x0202) = true := by decide
theorem test_sknp_does_not_skip :
    after { start 0xE1A1 with v := regs [(1, 0xF5)], keys := down [5] : State }
      (fun t => t.pc == 0x0202) = true := by decide
theorem test_sknp_skips : after { start 0xE1A1 with v := regs [(1, 0x05)] : State } (fun t => t.pc == 0x0204) = true := by decide
theorem test_ldVxK_waits_with_a_key_held :
    after { start 0xF30A with keys := down [9] : State }
      (fun t => t.pc == 0x0200 && t.mode == .awaitingKey 3 && t.v == regs [] && t.result == .waiting) = true := by decide
theorem test_keyDown_completes_the_wait :
    (fun t : State => t.pc == 0x0302 && t.mode == .running && t.keys == down [0] && t.v == regs [])
      (keyDown 0 { start 0xFF0A with pc := 0x0300, mode := .awaitingKey 15, v := regs [(15, 0x77)] }) = true := by decide
theorem test_keyDown_of_a_held_key_does_nothing :
    (fun t : State => t.pc == 0x0200 && t.mode == .awaitingKey 3 && t.keys == down [9] && t.v == regs [])
      (keyDown 9 { start 0xF30A with mode := .awaitingKey 3, keys := down [9] }) = true := by decide
theorem test_keyUp :
    (fun t : State => t.mode == .awaitingKey 3 && t.keys == down [4])
      (keyUp 9 { start 0xF30A with mode := .awaitingKey 3, keys := down [4, 9] }) = true := by decide

/-! Vectors 2.8, timers -/

theorem test_ldVxDT : after { start 0xF107 with dt := 42 : State } (fun t => t.v == regs [(1, 0x2A)]) = true := by decide
theorem test_ldDTVx :
    after { start 0xF115 with v := regs [(1, 0x3C)], st := 9 : State }
      (fun t => t.dt == 60 && t.st == 9) = true := by decide
theorem test_ldSTVx :
    after { start 0xF118 with v := regs [(1, 0x3C)], dt := 9 : State }
      (fun t => t.st == 60 && t.dt == 9 && t.toneActive) = true := by decide
theorem test_tick_does_not_wrap :
    (fun t : State => t.dt == 0 && t.st == 1 && t.pc == 0x0200) (tick { start 0x1200 with dt := 0, st := 2 }) = true := by decide

/-! Vectors 2.9, index and memory -/

theorem test_addI_past_FFF_writes_no_flag :
    after { start 0xF11E with v := regs [(1, 1)], iReg := 0x0FFF : State }
      (fun t => t.iReg == 0x1000 && t.v == regs [(1, 1)]) = true := by decide
theorem test_addI_under_the_option :
    after { start 0xFF1E with v := regs [(15, 2)], iReg := 0x0FFE, config := { Config.default with fx1eVfOverflow := true } : State }
      (fun t => t.iReg == 0x1000 && t.v == regs [(15, 1)]) = true := by decide
theorem test_ldF_takes_the_low_nibble :
    after { start 0xF129 with v := regs [(1, 0x1F)] : State }
      (fun t => t.iReg == 0x004B) = true := by decide
theorem test_ldF_at_another_base :
    after { start 0xF129 with v := regs [(1, 0x0F)], config := { Config.default with fontBase := 0x0050 } : State }
      (fun t => t.iReg == 0x009B) = true := by decide
theorem test_ldB :
    after { start 0xF133 with v := regs [(1, 0x6D)], iReg := 0x0FFD : State }
      (fun t => t.bytes 0xFFD 3 == [1, 0, 9] && t.iReg == 0x0FFD) = true := by decide
theorem test_ldB_out_of_range :
    after { start 0xF133 with v := regs [(1, 0x6D)], iReg := 0x0FFE : State }
      (fun t => t.mode == .halted (.memoryFault 0x0200 (some 0xF133) 0x1000) && t.byte 0xFFE == 0 && t.pc == 0x0200) = true := by decide
theorem test_ldMemVx :
    after { start 0xF255 with v := regs [(0, 0x11), (1, 0x22), (2, 0x33), (3, 0x44)], iReg := 0x0300 : State }
      (fun t => t.bytes 0x300 4 == [0x11, 0x22, 0x33, 0x00] && t.iReg == 0x0300) = true := by decide
theorem test_ldMemVx_out_of_range :
    after { start 0xF155 with v := regs [(0, 0x11), (1, 0x22)], iReg := 0x0FFF : State }
      (fun t => t.mode == .halted (.memoryFault 0x0200 (some 0xF155) 0x1000) && t.byte 0xFFF == 0) = true := by decide
theorem test_ldVxMem_reads_the_font :
    after { start 0xF265 with v := regs [(3, 0x44)], iReg := 0x004B : State }
      (fun t => t.v == regs [(0, 0xF0), (1, 0x80), (2, 0xF0), (3, 0x44)] && t.iReg == 0x004B) = true := by decide
theorem test_ldVxMem_out_of_range :
    after { start 0xF165 with iReg := 0x0FFF : State }
      (fun t => t.result == .fault (.memoryFault 0x0200 (some 0xF165) 0x1000) && t.v == regs []) = true := by decide

/-! Vectors 2.10 and 2.11: unmatched words, fetch faults, the modes, the loader -/

theorem test_unmatched_word_is_skipped :
    after (start 0x0123)
      (fun t => t.pc == 0x0202 && t.result == .unrecognized 0x0200 0x0123 && t.mode == .running) = true := by decide
theorem test_unmatched_word_halts_under_the_option :
    after { start 0x0000 with config := { Config.default with strictOpcodes := true } : State }
      (fun t => t.pc == 0x0200 && t.mode == .halted (.unrecognizedOpcode 0x0200 0x0000)) = true := by decide
theorem test_fetch_at_FFE :
    after { start 0x0000 with pc := 0x0FFE : State }
      (fun t => t.pc == 0x1000 && t.result == .unrecognized 0x0FFE 0x0000) = true := by decide
theorem test_fetch_at_FFF :
    after { start 0x0000 with pc := 0x0FFF : State }
      (fun t => t.pc == 0x0FFF && t.result == .fault (.memoryFault 0x0FFF none 0x1000)) = true := by decide
theorem test_fetch_at_10FE :
    after { start 0x0000 with pc := 0x10FE : State }
      (fun t => t.result == .fault (.memoryFault 0x10FE none 0x10FE)) = true := by decide
theorem test_reset_font : State.reset.bytes 0x000 5 = [0xF0, 0x90, 0x90, 0x90, 0xF0] ∧
    State.reset.bytes 0x04B 6 = [0xF0, 0x80, 0xF0, 0x80, 0x80, 0x00] := by decide
/-- A ROM is queued, loaded and run: the whole way a program comes to run from reset. -/
theorem test_load_and_run :
    (match core.run 2 (State.reset.deliver (.loadRom [0x6A, 0x42])) with
      | .next t => t.getV 0xA == 0x42 && t.pc == 0x0202
      | .fault _ => false
      | .refused _ => false) = true := by decide
/-- A second load is refused (R77). -/
theorem test_second_load_is_refused :
    (match core.run 2 ((State.reset.deliver (.loadRom [0x12])).deliver (.loadRom [0x12])) with
      | .next _ => false
      | .fault _ => false
      | .refused r => (show Refusal from r) == .loadRomOutOfOrder) = true := by decide
/-- The host's two questions on one word. -/
theorem test_host_entries :
    decodeTableWord 16 0x8AB4 = some (.addReg 0xA 0xB) ∧ (State.reset.withFetchWord 16 0x8AB4).fetch = .ok 0x8AB4 := ⟨by decide, rfl⟩


/-! ## Witnesses: for each statement with hypotheses, what meets all of them -/

/-- A state about to take the event `e`. -/
def withEvent (e : Event) (s : State) : State := { s with inputs := [e] }

theorem witness_EncodeOfDecodeIsTheWord : decode 0x8AB6 = .instr (.shr 0xA 0xB) ∧ decode 0xFF65 = .instr (.ldVxMem 15) := by decide

theorem witness_DecodeIsTheMatchingRow :
    (∃ r ∈ opcodeTable, (0x8AB4 : Word) &&& r.mask = r.pat) ∧ (∀ r ∈ opcodeTable, (0x0123 : Word) &&& r.mask ≠ r.pat) := by decide

theorem witness_UnmatchedWordsAreTheSixGroups : decode 0x0000 = .unmatched .family0 ∧ decode 0xFFFF = .unmatched .familyF := by decide

theorem witness_StepIsTheNextEvent : (withEvent .tick State.reset).inputs = .tick :: [] ∧ State.reset.inputs = [] := ⟨rfl, rfl⟩

/-- The boundary: the word at the last place a word fits. -/
theorem witness_StepRunsTheDecodedInstruction :
    (fun s : State => s.mode = .running ∧ s.pc.toNat + 1 = 4095 ∧ (0x1200 : Word) = s.byte s.pc.toNat ++ s.byte (s.pc.toNat + 1) ∧
      decode 0x1200 = .instr (.jp 0x200) ∧ s.inputs = []) { State.reset with pc := 0x0FFE, mem := [(0xFFE, 0x12)] } := by
  refine ⟨rfl, rfl, ?_, ?_, rfl⟩ <;> decide

theorem witness_StepRunsTheDecodedInstruction_queued :
    (fun s : State => s.mode = .running ∧ s.pc.toNat + 1 ≤ 4095 ∧ (0x1200 : Word) = s.byte s.pc.toNat ++ s.byte (s.pc.toNat + 1) ∧
      decode 0x1200 = .instr (.jp 0x200) ∧ s.inputs = .step 0xA7 :: []) (withEvent (.step 0xA7) (start 0x1200)) := by
  refine ⟨rfl, ?_, ?_, ?_, rfl⟩ <;> decide

theorem witness_FetchOutOfRangeHalts :
    (fun s : State => s.mode = .running ∧ s.inputs = .step 0x00 :: [] ∧ 4095 < s.pc.toNat + 1)
      (withEvent (.step 0x00) { State.reset with pc := 0x0FFF }) := by refine ⟨rfl, rfl, ?_⟩; decide

theorem witness_UnmatchedWordIsReported :
    (fun s : State => s.mode = .running ∧ s.inputs = .step 0x00 :: [] ∧ s.fetch = .ok 0x0000 ∧ decode 0x0000 = .unmatched .family0 ∧
      s.config.strictOpcodes = false) (withEvent (.step 0x00) State.reset) := by refine ⟨rfl, rfl, rfl, ?_, rfl⟩; decide

theorem witness_UnmatchedWordIsReported_strict :
    (fun s : State => s.mode = .running ∧ s.inputs = .step 0x00 :: [] ∧ s.fetch = .ok 0x0000 ∧ decode 0x0000 = .unmatched .family0 ∧
      s.config.strictOpcodes = true)
      (withEvent (.step 0x00) { State.reset with config := { Config.default with strictOpcodes := true } }) := by
  refine ⟨rfl, rfl, rfl, ?_, rfl⟩; decide

theorem witness_StepWhileAwaitingKeyChangesNothing :
    (fun s : State => s.mode = .awaitingKey 3 ∧ s.inputs = .step 0x00 :: [])
      (withEvent (.step 0x00) { start 0xF30A with mode := .awaitingKey 3 }) := ⟨rfl, rfl⟩

/-- A halted state: a return on an empty stack. -/
def haltedState : State := { start 0x00EE with mode := .halted (.stackUnderflow 0x0200 0x00EE) }

theorem witness_StepWhileHaltedChangesNothing :
    (fun s : State => s.mode = .halted (.stackUnderflow 0x0200 0x00EE) ∧ s.inputs = .step 0x00 :: [])
      (withEvent (.step 0x00) haltedState) := ⟨rfl, rfl⟩

/-- Each row of R125 has a step event that ends in it. -/
theorem witness_StepResultAndModeAgree :
    (∃ t, stepEvent 0x00 (start 0x1200) = .next t ∧ t.result = .ok) ∧
    (∃ t, stepEvent 0x00 (start 0xF30A) = .next t ∧ t.result = .waiting) ∧
    (∃ t, stepEvent 0x00 (start 0x0000) = .next t ∧ t.result = .unrecognized 0x0200 0x0000) ∧
    (∃ t, stepEvent 0x00 (start 0x00EE) = .next t ∧ t.result = .fault (.stackUnderflow 0x0200 0x00EE)) ∧
    (∃ t, stepEvent 0x00 haltedState = .next t ∧ t.result = .halted (.stackUnderflow 0x0200 0x00EE)) :=
  ⟨⟨_, rfl, rfl⟩, ⟨_, rfl, rfl⟩, ⟨_, rfl, rfl⟩, ⟨_, rfl, rfl⟩, ⟨_, rfl, rfl⟩⟩

theorem witness_TickCountsBothTimersDown : (withEvent .tick State.reset).inputs = .tick :: [] := rfl

theorem witness_TimersAfterManyTicks :
    { State.reset with inputs := List.replicate 3 .tick }.inputs = List.replicate 3 Event.tick ++ [] := rfl

/-- A key that is up and a key that is down, running and waiting. -/
theorem witness_KeyDownSetsTheKeyAndCompletesTheWait :
    (fun s : State => s.inputs = .keyDown 15 :: [] ∧ s.keys[(15 : Key)] = true) (withEvent (.keyDown 15) { start 0 with keys := down [15] }) ∧
    (fun s : State => s.inputs = .keyDown 0 :: [] ∧ s.keys[(0 : Key)] = false ∧ s.mode = .awaitingKey 15)
      (withEvent (.keyDown 0) { start 0xFF0A with mode := .awaitingKey 15 }) ∧
    (fun s : State => s.inputs = .keyDown 2 :: [] ∧ s.keys[(2 : Key)] = false ∧ ∀ r, s.mode ≠ .awaitingKey r)
      (withEvent (.keyDown 2) haltedState) := by
  refine ⟨⟨rfl, rfl⟩, ⟨rfl, rfl, rfl⟩, ⟨rfl, rfl, nofun⟩⟩

theorem witness_KeyUpClearsTheKey : (withEvent (.keyUp 9) { start 0xF30A with keys := down [9] }).inputs = .keyUp 9 :: [] := rfl

theorem witness_ResetValues :
    (fun c : Config => State.resetWith c = State.resetWith c ∧ c.fontBase = 0x1B0) { Config.default with fontBase := 0x1B0 } := ⟨rfl, rfl⟩

theorem witness_ResetEventRestoresResetState : (withEvent .reset haltedState).inputs = .reset :: [] := rfl

/-- The longest ROM that fits, the shortest that does not, and a load out of order. -/
theorem witness_LoadRomStoresTheRomOnce :
    (fun (s : State) (rom : List Byte) => s.inputs = .loadRom rom :: [] ∧ s.romLoadable = true ∧ rom.length ≤ 3584)
      (withEvent (.loadRom (List.replicate 3584 0xFF)) State.reset) (List.replicate 3584 0xFF) ∧
    (fun (s : State) (rom : List Byte) => s.inputs = .loadRom rom :: [] ∧ s.romLoadable = true ∧ 3584 < rom.length)
      (withEvent (.loadRom (List.replicate 3585 0xFF)) State.reset) (List.replicate 3585 0xFF) ∧
    (fun (s : State) (rom : List Byte) => s.inputs = .loadRom rom :: [] ∧ s.romLoadable = false)
      (withEvent (.loadRom []) { State.reset with romLoadable := false }) [] := by
  exact ⟨⟨rfl, rfl, List.length_replicate.le⟩, ⟨rfl, rfl, by rw [List.length_replicate]; decide⟩, ⟨rfl, rfl⟩⟩

/-- The last sprite that fits, the first that does not, and height zero with `I` out of range. -/
theorem witness_DrawXorsTheSpriteAndReportsCollision :
    (fun (s : State) (n : Fin 16) => n.val = 0 ∨ s.iReg.toNat + n.val - 1 ≤ 4095) { State.reset with iReg := 0x0FF1 } 15 ∧
    (fun (s : State) (n : Fin 16) => n.val = 0 ∨ s.iReg.toNat + n.val - 1 ≤ 4095) { State.reset with iReg := 0xFFFF } 0 ∧
    (fun (s : State) (n : Fin 16) => 0 < n.val ∧ 4095 < s.iReg.toNat + n.val - 1) { State.reset with iReg := 0x0FF2 } 15 := by decide

/-- A draw of the glyph at 0 on a blank screen keeps the coordinates, and with VF as a coordinate it keeps them where VF stays 0. -/
theorem witness_DrawingTwiceRestoresTheFramebuffer :
    ((5 : Fin 16).val = 0 ∨ State.reset.iReg.toNat + (5 : Fin 16).val ≤ 4096) ∧ (∀ r c, State.reset.pixel r c = false) ∧
    (∃ t, exec (.drw 1 2 5) State.reset = .next t ∧ t.getV 1 = State.reset.getV 1 ∧ t.getV 2 = State.reset.getV 2) := by
  refine ⟨by decide, fun r c => ?_, _, rfl, rfl, rfl⟩
  simp [State.pixel, State.reset, State.resetWith]

theorem witness_CallPushesItsOwnAddress :
    { start 0x2ABC with sp := 15 }.sp.val < 16 ∧ { start 0x2ABC with sp := 16 }.sp = 16 := by decide

theorem witness_ReturnGoesPastThePoppedAddress :
    0 < { start 0x00EE with sp := 1 }.sp.val ∧ (start 0x00EE).sp = 0 := by decide

/-- A subroutine that made a call of its own left a stale slot above `sp`; the premise holds of it all the same. -/
theorem witness_ReturnAfterCallResumesAfterTheCall :
    (start 0x2300).sp.val < 16 ∧ ∃ u : State, u.stack[1] = 0x0310 ∧ ∀ t, exec (.call 0x300) (start 0x2300) = .next t →
      t.stack[1] = 0x0000 ∧ u.sp = t.sp ∧ ∀ k : Fin 16, k.val < t.sp.val → u.stack[k] = t.stack[k] := by
  refine ⟨by decide, { start 0x2300 with sp := 1, stack := ((start 0x2300).stack.set 0 0x0200).set 1 0x0310 }, by decide, fun t h => ?_⟩
  cases h
  exact ⟨by decide, rfl, by decide⟩

theorem witness_KeySkipsTestTheLowNibblesKey :
    (15 : Key).val = ({ start 0xE19E with v := regs [(1, 0xFF)] }.getV 1).toNat % 16 := by decide

theorem witness_AddSetsSumAndCarry : (0 : Reg) ≠ 15 ∧ (14 : Reg) ≠ 15 ∧ (0 : Reg) ≠ 14 := by decide

theorem witness_SubtractionsSetDifferenceAndNoBorrow : (0 : Reg) ≠ 15 ∧ (14 : Reg) ≠ 15 ∧ (0 : Reg) ≠ 14 := by decide

theorem witness_ShiftsMoveOneBitIntoTheFlag : (0 : Reg) ≠ 15 ∧ (14 : Reg) ≠ 15 ∧ (0 : Reg) ≠ 14 := by decide

theorem witness_FlagRegisterAsOperand :
    (fun (z : Reg) (s : State) => 7 = (s.getV 15).toNat ∧ 5 = (s.getV z).toNat ∧ z ≠ 15)
      1 { start 0x81F5 with v := regs [(1, 0x05), (15, 0x07)] } := by decide

theorem witness_KeyWaitHoldsUntilAKeyGoesDown :
    (fun s : State => s.mode = .awaitingKey 1 ∧ s.keys[(7 : Key)] = false ∧
      s.inputs = [0x00, 0xFF].map Event.step ++ .keyDown 7 :: [.keyUp 7])
      { start 0xF10A with mode := .awaitingKey 1, keys := down [5], inputs := [.step 0x00, .step 0xFF, .keyDown 7, .keyUp 7] } := by
  refine ⟨rfl, ?_, rfl⟩; decide

theorem witness_AddToIndexWrapsAndFlagsByParameter :
    State.reset.config.fx1eVfOverflow = false ∧
    { State.reset with config := { Config.default with fx1eVfOverflow := true } }.config.fx1eVfOverflow = true := ⟨rfl, rfl⟩

theorem witness_DigitAddressIsFiveBytesPerDigit :
    { State.reset with config := { Config.default with fontBase := 0x01B0 } }.config.fontBase.toNat + 80 ≤ 0x200 := by decide

theorem witness_DecimalDigitsAreStoredAtIndex :
    { State.reset with iReg := 0x0FFD }.iReg.toNat ≤ 4093 ∧ 4093 < { State.reset with iReg := 0x0FFE }.iReg.toNat := by decide

theorem witness_BlockStoreCopiesRegistersToMemory :
    { State.reset with iReg := 0x0FF0 }.iReg.toNat + (15 : Reg).val ≤ 4095 ∧
    4095 < { State.reset with iReg := 0x0FF1 }.iReg.toNat + (15 : Reg).val := by decide

theorem witness_BlockLoadCopiesMemoryToRegisters :
    { State.reset with iReg := 0x0FFF }.iReg.toNat + (0 : Reg).val ≤ 4095 ∧
    4095 < { State.reset with iReg := 0x0FFF }.iReg.toNat + (1 : Reg).val := by decide

/-- What the store leaves in the block, with the registers cleared and a byte beyond the block written in between, meets the premise. -/
theorem witness_BlockStoreThenLoadRestoresRegisters :
    (fun s : State => s.iReg.toNat + (2 : Reg).val ≤ 4095 ∧
      ∃ u : State, u.v = regs [] ∧ u.byte 0x403 = 0x44 ∧ ∀ t, exec (.ldMemVx 2) s = .next t →
        u.iReg = t.iReg ∧ ∀ a, s.iReg.toNat ≤ a → a ≤ s.iReg.toNat + (2 : Reg).val → u.byte a = t.byte a)
      { start 0xF255 with v := regs [(0, 0x11), (1, 0x22), (2, 0x33)], iReg := 0x0400 } := by
  refine ⟨by decide, { start 0xF255 with iReg := 0x0400, mem := [(0x400, 0x11), (0x401, 0x22), (0x402, 0x33), (0x403, 0x44)] },
    by decide, by decide, fun t h => ?_⟩
  cases h
  refine ⟨rfl, fun a h₁ h₂ => ?_⟩
  obtain rfl | rfl | rfl : a = 0x400 ∨ a = 0x401 ∨ a = 0x402 := by
    change 0x400 ≤ a at h₁; change a ≤ 0x400 + 2 at h₂; omega
  all_goals decide

/-- Program P7, where `Fx55` overwrites both bytes of the next word; `Fx55` over its first byte only, and `Fx33` over its last one only,
the word being the last of memory. -/
theorem witness_StoredCodeIsFetchedNext :
    (fun (s : State) (x : Reg) => s.pc.toNat + 3 ≤ 4095 ∧ s.iReg.toNat + x.val ≤ 4095 ∧
      s.iReg.toNat = s.pc.toNat + 2 ∧ s.iReg.toNat + x.val = s.pc.toNat + 3) { State.reset with iReg := 0x0208, pc := 0x0206 } 1 ∧
    (fun (s : State) (x : Reg) => s.pc.toNat + 3 ≤ 4095 ∧ s.iReg.toNat + x.val ≤ 4095 ∧
      s.iReg.toNat + x.val = s.pc.toNat + 2) { State.reset with iReg := 0x0FFE, pc := 0x0FFC } 0 ∧
    (fun s : State => s.pc.toNat + 3 ≤ 4095 ∧ s.iReg.toNat + 2 ≤ 4095 ∧ s.iReg.toNat + 2 = s.pc.toNat + 3)
      { State.reset with iReg := 0x0FFD, pc := 0x0FFC } := by decide

theorem witness_MemoriesThatReadAlikeAreEqual :
    Memory.wf Config.default [(0x000, 0x00), (0x200, 0x12)] ∧
    ∀ a, Memory.peek Config.default [(0x000, 0x00), (0x200, 0x12)] a = Memory.peek Config.default [(0x000, 0x00), (0x200, 0x12)] a := by
  refine ⟨?_, fun _ => rfl⟩; decide

theorem witness_WritersOfKeysTimersAndIndex :
    ∃ t, exec (.drw 0 1 5) State.reset = .next t ∧ (∀ x, Instr.drw 0 1 5 ≠ .ldDTVx x) ∧ (∀ x, Instr.drw 0 1 5 ≠ .ldSTVx x) ∧
      (∀ nnn, Instr.drw 0 1 5 ≠ .ldI nnn) ∧ (∀ x, Instr.drw 0 1 5 ≠ .addI x) ∧ (∀ x, Instr.drw 0 1 5 ≠ .ldF x) :=
  ⟨_, rfl, nofun, nofun, nofun, nofun, nofun⟩

theorem witness_WritersOfStackFramebufferAndMemory :
    ∃ t, exec (.ldImm 0 1) State.reset = .next t ∧ (∀ nnn, Instr.ldImm 0 1 ≠ .call nnn) ∧ Instr.ldImm 0 1 ≠ .ret ∧
      Instr.ldImm 0 1 ≠ .cls ∧ (∀ x y n, Instr.ldImm 0 1 ≠ .drw x y n) ∧ (∀ x, Instr.ldImm 0 1 ≠ .ldB x) ∧
      (∀ x, Instr.ldImm 0 1 ≠ .ldMemVx x) :=
  ⟨_, rfl, nofun, nofun, nofun, nofun, nofun, nofun⟩

theorem witness_WritersOfTheRegisters : ∃ t, exec (.ldImm 15 1) State.reset = .next t ∧ t.getV 15 ≠ State.reset.getV 15 :=
  ⟨_, rfl, by decide⟩

theorem witness_FaultsArePrecise :
    (fun s : State => s.mode = .running ∧ ∃ t, step s = .next t ∧ t.mode = .halted (.memoryFault 0x0200 (some 0xFF65) 0x1000))
      { start 0xFF65 with iReg := 0x0FF1 } := ⟨rfl, _, rfl, rfl⟩

theorem witness_EachInstructionRaisesOneKindOfFault :
    (fun s : State => s.mode = .running ∧ ∃ t, exec .ret s = .next t ∧ t.mode = .halted (.stackUnderflow 0x0200 0x00EE)) State.reset :=
  ⟨rfl, _, rfl, rfl⟩

theorem witness_HaltedIsLeftByResetOnly :
    (fun s : State => s.mode = .halted (.stackUnderflow 0x0200 0x00EE) ∧ (∃ t, step s = .next t) ∧ s.inputs.head? ≠ some .reset ∧
      s.romLoadable = false) { withEvent (.keyDown 2) haltedState with romLoadable := false } := by
  refine ⟨rfl, ⟨_, rfl⟩, ?_, rfl⟩; decide

theorem witness_KeyWaitIsLeftByKeyDownOrResetOnly :
    (fun s : State => s.mode = .awaitingKey 3 ∧ ∃ t, step s = .next t ∧ t.mode ≠ .awaitingKey 3)
      (withEvent (.keyDown 9) { start 0xF30A with mode := .awaitingKey 3 }) := ⟨rfl, _, rfl, nofun⟩

theorem witness_SelfJumpIsAFixedPoint :
    ((start 0x1200).Completed ∧ (start 0x1200).inputs = []) ∧
    ((withEvent (.step 0xA7) (start 0x1200)).Completed ∧ (withEvent (.step 0xA7) (start 0x1200)).inputs = .step 0xA7 :: []) :=
  ⟨⟨⟨rfl, 0x200, rfl, rfl⟩, rfl⟩, ⟨rfl, 0x200, rfl, rfl⟩, rfl⟩

/-- Waiting on the `F30A` at 0x200, with a key down and the stack in use: a state of the invariant that is not the reset state, whose next
event completes the wait. -/
theorem witness_EveryStepKeepsTheInvariant :
    (fun s : State => Inv s ∧ ∃ t, step s = .next t)
      { start 0xF30A with mode := .awaitingKey 3, romLoadable := false, sp := 1, stack := Vector.replicate 16 0x0FFE,
                          keys := down [5], inputs := [.keyDown 9] } := by
  refine ⟨⟨by decide, by decide, ?_, by decide, by decide⟩, _, rfl⟩
  intro t h
  cases h
  exact ⟨rfl, rfl⟩

theorem witness_ResetMeetsTheInvariant : { Config.default with fontBase := 0x1B0 : Config }.WellFormed := by decide

theorem witness_ReachableStatesMeetTheInvariant :
    Config.default.WellFormed ∧ Reachable Config.default ((State.resetWith Config.default).deliver .tick) :=
  ⟨by decide, .event .tick .reset⟩

end Sys2Proof.Tests
end

section
/-! PROOFS. No matched word loses a bit: a word is put together again from the fields of its format (R92, R93), so encoding what a row of
the opcode map builds from a word that it matches gives the word back. -/

namespace Sys2Proof

/-! ## A word from its fields -/

theorem formatA_fields (w : Word) : formatA (family w) (fieldNNN w) = w :=
  (BitVec.extractLsb'_append_extractLsb'_eq_extractLsb' (by decide)).trans (by simp)

theorem fieldX_append_fieldKK (w : Word) : BitVec.ofFin (w := 4) (fieldX w) ++ fieldKK w = fieldNNN w :=
  BitVec.extractLsb'_append_extractLsb'_eq_extractLsb' (by decide)

theorem fieldY_append_subNibble (w : Word) : BitVec.ofFin (w := 4) (fieldY w) ++ subNibble w = fieldKK w :=
  BitVec.extractLsb'_append_extractLsb'_eq_extractLsb' (by decide)

theorem formatXK_fields (w : Word) : formatXK (family w) (fieldX w) (fieldKK w) = w := by
  rw [formatXK, fieldX_append_fieldKK]
  exact formatA_fields w

theorem formatXYN_fields (w : Word) : formatXYN (family w) (fieldX w) (fieldY w) (subNibble w) = w := by
  rw [formatXYN, fieldY_append_subNibble]
  exact formatXK_fields w

@[simp] theorem subNibble_formatXYN (f : BitVec 4) (x y : Reg) (n : BitVec 4) : subNibble (formatXYN f x y n) = n :=
  congrArg BitVec.ofFin (fieldN_formatXYN f x y n)

/-! ## A word that a mask and a match fit, from the match and the variable fields -/

theorem formatA_of_mask {w p : Word} (h : w &&& 0xF000 = p) : formatA (family p) (fieldNNN w) = w := by
  obtain ⟨f, nnn, rfl⟩ : ∃ f nnn, w = formatA f nnn := ⟨_, _, (formatA_fields w).symm⟩
  rw [formatA_mask] at h
  subst h
  simp

theorem formatXK_of_mask {w p : Word} (h : w &&& 0xF000 = p) : formatXK (family p) (fieldX w) (fieldKK w) = w := by
  obtain ⟨f, x, kk, rfl⟩ : ∃ f x kk, w = formatXK f x kk := ⟨_, _, _, (formatXK_fields w).symm⟩
  rw [formatXK_mask] at h
  subst h
  simp

theorem formatXK_of_maskSub {w p : Word} (h : w &&& 0xF0FF = p) : formatXK (family p) (fieldX w) (fieldKK p) = w := by
  obtain ⟨f, x, kk, rfl⟩ : ∃ f x kk, w = formatXK f x kk := ⟨_, _, _, (formatXK_fields w).symm⟩
  rw [formatXK_maskSub] at h
  subst h
  simp

theorem formatXYN_of_mask {w p : Word} (h : w &&& 0xF000 = p) :
    formatXYN (family p) (fieldX w) (fieldY w) (subNibble w) = w := by
  obtain ⟨f, x, y, n, rfl⟩ : ∃ f x y n, w = formatXYN f x y n := ⟨_, _, _, _, (formatXYN_fields w).symm⟩
  rw [formatXYN_mask] at h
  subst h
  simp

theorem formatXYN_of_maskSub {w p : Word} (h : w &&& 0xF00F = p) :
    formatXYN (family p) (fieldX w) (fieldY w) (subNibble p) = w := by
  obtain ⟨f, x, y, n, rfl⟩ : ∃ f x y n, w = formatXYN f x y n := ⟨_, _, _, _, (formatXYN_fields w).symm⟩
  rw [formatXYN_maskSub] at h
  subst h
  simp

theorem eq_of_fullMask {w p : Word} (h : w &&& 0xFFFF = p) : p = w :=
  h.symm.trans (BitVec.and_allOnes (x := w))

/-! ## The opcode map -/

/-- Encoding what a row builds from a word that it matches gives the word back. -/
theorem encode_build {r : OpcodeRow} (hr : r ∈ opcodeTable) : ∀ {w : Word}, w &&& r.mask = r.pat → encode (r.build w) = w := by
  revert r
  simp only [opcodeTable, opcodeRows1, opcodeRows2, opcodeRows3, opcodeRows4, List.cons_append, List.nil_append,
    List.forall_mem_cons]
  exact ⟨eq_of_fullMask, eq_of_fullMask, formatA_of_mask, formatA_of_mask, formatXK_of_mask, formatXK_of_mask,
    formatXYN_of_maskSub, formatXK_of_mask, formatXK_of_mask,
    formatXYN_of_maskSub, formatXYN_of_maskSub, formatXYN_of_maskSub, formatXYN_of_maskSub, formatXYN_of_maskSub,
    formatXYN_of_maskSub, formatXYN_of_maskSub, formatXYN_of_maskSub, formatXYN_of_maskSub,
    formatXYN_of_maskSub, formatA_of_mask, formatA_of_mask, formatXK_of_mask, formatXYN_of_mask, formatXK_of_maskSub,
    formatXK_of_maskSub,
    formatXK_of_maskSub, formatXK_of_maskSub, formatXK_of_maskSub, formatXK_of_maskSub, formatXK_of_maskSub,
    formatXK_of_maskSub, formatXK_of_maskSub, formatXK_of_maskSub, formatXK_of_maskSub, nofun⟩

/-- An instruction that the decoder reads is built by a row that matches the word. -/
theorem exists_row_of_decode {w : Word} {i : Instr} (h : decode w = .instr i) :
    ∃ r ∈ opcodeTable, w &&& r.mask = r.pat ∧ r.build w = i := by
  unfold decode at h
  split at h
  · rename_i r hr
    exact ⟨r, List.mem_of_find?_eq_some hr, by simpa using List.find?_some hr, Decoded.instr.inj h⟩
  · cases h

/-- Encoding what a word decodes to gives the word back. -/
theorem encode_of_decode {w : Word} {i : Instr} (h : decode w = .instr i) : encode i = w := by
  obtain ⟨r, hr, hm, rfl⟩ := exists_row_of_decode h
  exact encode_build hr hm

end Sys2Proof
end

section
/-! PROOFS. What an instruction can write (R38): one lemma over the instructions for everything but the registers, `pc` and the mode, and
one for the registers. -/

namespace Sys2Proof.Machine

/-- The access matrix of R38 for what an instruction writes, but for the registers, `pc` and the mode: a field differs only under the
instructions of its row. -/
structure Footprint (i : Instr) (s t : State) : Prop where
  keys : t.keys = s.keys
  config : t.config = s.config
  dt : (∀ x, i ≠ .ldDTVx x) → t.dt = s.dt
  st : (∀ x, i ≠ .ldSTVx x) → t.st = s.st
  iReg : (∀ nnn, i ≠ .ldI nnn) → (∀ x, i ≠ .addI x) → (∀ x, i ≠ .ldF x) → t.iReg = s.iReg
  stack : (∀ nnn, i ≠ .call nnn) → t.stack = s.stack
  sp : (∀ nnn, i ≠ .call nnn) → i ≠ .ret → t.sp = s.sp
  fb : i ≠ .cls → (∀ x y n, i ≠ .drw x y n) → t.fb = s.fb
  mem : (∀ x, i ≠ .ldB x) → (∀ x, i ≠ .ldMemVx x) → t.mem = s.mem

/-- A state that differs in the registers, `pc`, the mode and the outputs only is within every instruction's footprint. -/
theorem Footprint.of_frame {i : Instr} {s t : State} (h : t = { s with v := t.v, pc := t.pc, mode := t.mode, result := t.result }) :
    Footprint i s t := by
  rw [h]
  constructor <;> intros <;> rfl

theorem exec_footprint {i : Instr} {s t : State} (h : exec i s = .next t) : Footprint i s t := by
  cases i with
  | ret =>
    rcases execRet_eq_next.1 h with ⟨_, rfl⟩ | ⟨_, rfl⟩
    · constructor <;> simp
    · exact .of_frame rfl
  | call nnn =>
    rcases execCall_eq_next.1 h with ⟨_, rfl⟩ | ⟨_, rfl⟩
    · constructor <;> simp
    · exact .of_frame rfl
  | drw x y n =>
    rcases execDrw_eq_next.1 h with ⟨_, k, _, rfl⟩ | ⟨_, rfl⟩
    · constructor <;> simp
    · exact .of_frame rfl
  | ldB x =>
    rcases execLdB_eq_next.1 h with ⟨_, rfl⟩ | ⟨_, rfl⟩
    · constructor <;> simp
    · exact .of_frame rfl
  | ldMemVx x =>
    rcases execLdMemVx_eq_next.1 h with ⟨_, rfl⟩ | ⟨_, rfl⟩
    · constructor <;> simp
    · exact .of_frame rfl
  | ldVxMem x => rcases execLdVxMem_eq_next.1 h with ⟨_, rfl⟩ | ⟨_, rfl⟩ <;> exact .of_frame rfl
  | addI x => rcases execAddI_eq_next.1 h with ⟨_, rfl⟩ | ⟨_, rfl⟩ <;> constructor <;> simp
  | cls | ldI _ | ldF _ | ldDTVx _ | ldSTVx _ =>
    cases h
    constructor <;> simp
  | jp _ | jpV0 _ | seImm _ _ | sneImm _ _ | seReg _ _ | sneReg _ _ | skp _ | sknp _ | ldVxK _ | ldImm _ _ | addImm _ _
  | rnd _ _ | ldReg _ _ | orReg _ _ | andReg _ _ | xorReg _ _ | addReg _ _ | sub _ _ | shr _ _ | subn _ _ | shl _ _
  | ldVxDT _ =>
    cases h
    exact .of_frame rfl

/-- Settles O49, by the footprint of an instruction. -/
theorem writersOfKeysTimersAndIndex : Obligations.WritersOfKeysTimersAndIndex := fun _ _ _ h =>
  have f := exec_footprint h
  ⟨f.keys, f.config, f.dt, f.st, f.iReg⟩

/-- Settles O50, by the footprint of an instruction. -/
theorem writersOfStackFramebufferAndMemory : Obligations.WritersOfStackFramebufferAndMemory := fun _ _ _ h =>
  have f := exec_footprint h
  ⟨f.stack, f.sp, f.fb, f.mem⟩

/-! ## The registers -/

theorem eq_of_getV_setV_ne {s : State} {x j : Reg} {b : Byte} (h : (s.setV x b).getV j ≠ s.getV j) : j = x := by
  by_contra hj
  exact h (getV_setV_ne s b hj)

theorem eq_of_getV_setFlagThenV_ne {s : State} {flag : Bool} {x j : Reg} {b : Byte}
    (h : (s.setFlagThenV flag x b).getV j ≠ s.getV j) : j = x ∨ j = vf := by
  by_contra hj
  obtain ⟨hx, hf⟩ := not_or.1 hj
  exact h (by rw [getV_setFlagThenV, if_neg hx, if_neg hf])

theorem le_of_loadRegs_ne {s : State} {base : Nat} {x j : Reg} (h : (s.loadRegs base x)[j] ≠ s.v[j]) : j ≤ x := by
  by_contra hj
  exact h (by rw [getElem_loadRegs, if_neg hj]; rfl)

/-- Settles O51, instruction by instruction: a changed register is one that the instruction's register write reaches. -/
theorem writersOfTheRegisters : Obligations.WritersOfTheRegisters := by
  intro i s t j h hj
  cases i with
  | ldImm x kk | addImm x kk | rnd x kk =>
    cases h
    cases eq_of_getV_setV_ne hj
    simp
  | ldReg x y | orReg x y | andReg x y | xorReg x y =>
    cases h
    cases eq_of_getV_setV_ne hj
    simp
  | addReg x y | sub x y | shr x y | subn x y | shl x y =>
    cases h
    have hx : j = x ∨ j = 15 := eq_of_getV_setFlagThenV_ne hj
    simpa using hx
  | ldVxDT x =>
    cases h
    cases eq_of_getV_setV_ne hj
    simp
  | ldVxMem x =>
    rcases execLdVxMem_eq_next.1 h with ⟨_, rfl⟩ | ⟨_, rfl⟩
    · have hx : j ≤ x := le_of_loadRegs_ne hj
      simpa using hx
    · exact absurd rfl hj
  | drw x y n =>
    rcases execDrw_eq_next.1 h with ⟨_, k, _, rfl⟩ | ⟨_, rfl⟩
    · have hf : j = 15 := eq_of_getV_setV_ne hj
      simp [hf]
    · exact absurd rfl hj
  | addI x =>
    rcases execAddI_eq_next.1 h with ⟨hc, rfl⟩ | ⟨_, rfl⟩
    · have hf : j = 15 := eq_of_getV_setV_ne hj
      simp [hf, hc]
    · exact absurd rfl hj
  | ret => rcases execRet_eq_next.1 h with ⟨_, rfl⟩ | ⟨_, rfl⟩ <;> exact absurd rfl hj
  | call nnn => rcases execCall_eq_next.1 h with ⟨_, rfl⟩ | ⟨_, rfl⟩ <;> exact absurd rfl hj
  | ldB x => rcases execLdB_eq_next.1 h with ⟨_, rfl⟩ | ⟨_, rfl⟩ <;> exact absurd rfl hj
  | ldMemVx x => rcases execLdMemVx_eq_next.1 h with ⟨_, rfl⟩ | ⟨_, rfl⟩ <;> exact absurd rfl hj
  | cls | jp _ | jpV0 _ | seImm _ _ | sneImm _ _ | seReg _ _ | sneReg _ _ | skp _ | sknp _ | ldI _ | ldF _ | ldDTVx _
  | ldSTVx _ | ldVxK _ =>
    cases h
    exact absurd rfl hj

end Sys2Proof.Machine
end

section
/-! PROOFS. The canonical form of memory: what a canonical memory reads as says which cells it lists. -/

namespace Sys2Proof.Machine.Memory

theorem mem_of_lookup_eq_some {m : List Host.Cell} {a : Nat} {x : Byte} (h : lookup m a = some x) : (a, x) ∈ m := by
  induction m with
  | nil => cases h
  | cons q m ih =>
    obtain ⟨b, w⟩ := q
    unfold lookup at h
    split at h
    · rename_i hab
      cases h
      exact hab ▸ List.mem_cons_self
    · exact List.mem_cons_of_mem _ (ih h)

/-- Where the addresses rise, a listed cell is the one that is found at its address. -/
theorem lookup_eq_some_of_mem {m : List Host.Cell} (hm : m.Pairwise fun p q => p.1 < q.1) {p : Host.Cell} (hp : p ∈ m) :
    lookup m p.1 = some p.2 := by
  induction m with
  | nil => cases hp
  | cons q m ih =>
    obtain ⟨hq, hm⟩ := List.pairwise_cons.1 hm
    rcases List.mem_cons.1 hp with rfl | hp
    · simp [lookup]
    · have hne : p.1 ≠ q.1 := Nat.ne_of_gt (hq p hp)
      simp [lookup, hne, ih hm hp]

/-- A canonical memory lists exactly the cells that read otherwise than at reset. -/
theorem mem_iff_peek {c : Config} {m : List Host.Cell} (hm : wf c m) (p : Host.Cell) :
    p ∈ m ↔ p.2 = peek c m p.1 ∧ p.2 ≠ background c p.1 := by
  constructor
  · intro hp
    have hl := lookup_eq_some_of_mem hm.1 hp
    exact ⟨by simp [peek, hl], (hm.2 p hp).2⟩
  · rintro ⟨hr, hb⟩
    cases hl : lookup m p.1 with
    | none => exact absurd (by simpa [peek, hl] using hr) hb
    | some x =>
      have hx : p.2 = x := by simpa [peek, hl] using hr
      rw [← hx] at hl
      exact mem_of_lookup_eq_some hl

/-- Two lists of rising addresses with the same cells are the same list. -/
theorem eq_of_rising {m m' : List Host.Cell} (hm : m.Pairwise fun p q => p.1 < q.1)
    (hm' : m'.Pairwise fun p q => p.1 < q.1) (h : ∀ p, p ∈ m ↔ p ∈ m') : m = m' := by
  have hn : m.Nodup := hm.imp fun hpq e => Nat.ne_of_lt hpq (congrArg Prod.fst e)
  have hn' : m'.Nodup := hm'.imp fun hpq e => Nat.ne_of_lt hpq (congrArg Prod.fst e)
  exact ((List.perm_ext_iff_of_nodup hn hn').2 h).eq_of_pairwise
    (fun _ _ _ _ hpq hqp => absurd hqp (Nat.lt_asymm hpq)) hm hm'

/-- Settles O48: both memories list the cells that read otherwise than at reset. -/
theorem memoriesThatReadAlikeAreEqual : Obligations.MemoriesThatReadAlikeAreEqual := by
  intro c m m' hm hm' hread
  refine eq_of_rising hm.1 hm'.1 fun p => ?_
  rw [mem_iff_peek hm, mem_iff_peek hm', hread]

end Sys2Proof.Machine.Memory
end

section
/-! PROOFS. The reset state (R39). -/

namespace Sys2Proof.Machine

/-! ## What memory reads as at its reset contents -/

theorem background_font (c : Config) (j : Fin 80) : Memory.background c (c.fontBase.toNat + j.val) = c.font[j] := by
  have hj : c.fontBase.toNat ≤ c.fontBase.toNat + j.val ∧ c.fontBase.toNat + j.val < c.fontBase.toNat + 80 := by omega
  rw [Memory.background, dif_pos hj]
  simp

theorem background_outside (c : Config) {a : Nat} (h : a < c.fontBase.toNat ∨ c.fontBase.toNat + 80 ≤ a) :
    Memory.background c a = 0x00 :=
  dif_neg (by omega)

/-- Settles O17, piece by piece: the registers and the pixels are read from constant vectors, memory from its reset contents. -/
theorem resetValues : Obligations.ResetValues := by
  refine ⟨rfl, ?_⟩
  rintro c s rfl
  refine ⟨?_, rfl, rfl, rfl, ?_, rfl, rfl, ?_, ?_, background_font c, fun a => background_outside c, rfl, rfl⟩
  · intro j
    simp [State.getV, State.resetWith]
  · intro k
    simp [State.resetWith]
  · intro k
    simp [State.resetWith]
  · intro r c'
    simp [State.pixel, State.resetWith]

end Sys2Proof.Machine
end

section
/-! PROOFS. The invariant of R40: it holds at reset, every event keeps it, so it holds of every reachable state. -/

namespace Sys2Proof.Machine

/-! ## What the invariant depends on -/

/-- The invariant reads `pc`, the stack, memory, the parameters and, while waiting, the permission to load a ROM; a state that agrees on
these and waits for no other key meets it too. -/
theorem Inv.of_agree {s t : State} (h : Inv s) (hpc : t.pc = s.pc) (hsp : t.sp = s.sp) (hstack : t.stack = s.stack)
    (hmem : t.mem = s.mem) (hconfig : t.config = s.config)
    (hwait : ∀ r, t.mode = .awaitingKey r → s.mode = .awaitingKey r ∧ (s.romLoadable = false → t.romLoadable = false)) :
    Inv t where
  pcRange := hpc ▸ h.pcRange
  slots := by
    rw [hsp, hstack]
    exact h.slots
  waiting r hr := by
    obtain ⟨hm, hl⟩ := hwait r hr
    obtain ⟨hf, hrom⟩ := h.waiting r hm
    exact ⟨(fetch_congr hpc hconfig hmem).trans hf, hl hrom⟩
  memory := by
    rw [hmem, hconfig]
    exact h.memory
  parameters := hconfig ▸ h.parameters

/-- The invariant reads no register, timer, key or pixel, and no output or input. -/
theorem Inv.of_frame {s t : State} (h : Inv s)
    (ht : t = { s with v := t.v, iReg := t.iReg, dt := t.dt, st := t.st, keys := t.keys, fb := t.fb, result := t.result,
                       trace := t.trace, rnd := t.rnd, draws := t.draws, inputs := t.inputs }) : Inv t := by
  rw [ht]
  exact h.of_agree rfl rfl rfl rfl rfl fun _ hr => ⟨hr, id⟩

/-- A fault keeps the invariant: it changes the mode and the result only (R309), and a halted machine waits for no key. -/
theorem raiseFault_inv {f : FaultRecord} {s t : State} (h : Inv s) (ht : raiseFault f s = .next t) : Inv t := by
  cases raiseFault_eq_next.1 ht
  exact h.of_agree rfl rfl rfl rfl rfl nofun

/-! ## Addresses -/

theorem toNat_zextAddr_le (nnn : Addr) : (zextAddr nnn).toNat ≤ 0x0FFF := by
  have := nnn.isLt
  simp only [zextAddr, BitVec.toNat_setWidth]
  omega

theorem toNat_zextByte_le (b : Byte) : (zextByte b).toNat ≤ 0xFF := by
  have := b.isLt
  simp only [zextByte, BitVec.toNat_setWidth]
  omega

/-- The sum of two words, reduced or not, is at most the unbounded sum. -/
theorem toNat_add_word_le (a b : Word) : (a + b).toNat ≤ a.toNat + b.toNat := by
  rw [BitVec.toNat_add]
  exact Nat.mod_le _ _

/-- A word is fetched at an address of at most 0xFFE (R26). -/
theorem pc_le_of_fetch {s : State} {w : Word} (h : s.fetch = .ok w) : s.pc.toNat ≤ 0x0FFE :=
  Nat.le_of_succ_le_succ (fetch_eq_ok.1 h).1

/-! ## An instruction, part by part of the invariant -/

/-- Where an instruction leaves `pc` (R25): where it was, 2 or 4 further, 2 past an occupied stack slot, or at an address of at most
0x10FE. -/
theorem exec_pc {i : Instr} {s t : State} (h : exec i s = .next t) :
    t.pc = s.pc ∨ t.pc = s.pc + 2 ∨ t.pc = s.pc + 4 ∨ (∃ k : Fin 16, k.val < s.sp.val ∧ t.pc = s.stack[k] + 2) ∨
      t.pc.toNat ≤ 0x10FE := by
  cases i with
  | jp nnn =>
    cases h
    have := toNat_zextAddr_le nnn
    simp only
    omega
  | jpV0 nnn =>
    cases h
    have := toNat_zextAddr_le nnn
    have := toNat_zextByte_le (s.getV 0)
    have := toNat_add_word_le (zextAddr nnn) (zextByte (s.getV 0))
    simp only
    omega
  | call nnn =>
    rcases execCall_eq_next.1 h with ⟨_, rfl⟩ | ⟨_, rfl⟩
    · have := toNat_zextAddr_le nnn
      simp only
      omega
    · exact .inl rfl
  | ret =>
    rcases execRet_eq_next.1 h with ⟨hsp, rfl⟩ | ⟨_, rfl⟩
    · exact .inr (.inr (.inr (.inl ⟨⟨s.sp.val - 1, by omega⟩, by simp only; omega, rfl⟩)))
    · exact .inl rfl
  | seImm _ _ | sneImm _ _ | seReg _ _ | sneReg _ _ | skp _ | sknp _ =>
    rw [skipIf_eq_next.1 h]
    simp only
    split <;> simp
  | drw x y n => rcases execDrw_eq_next.1 h with ⟨_, k, _, rfl⟩ | ⟨_, rfl⟩ <;> simp
  | ldB x => rcases execLdB_eq_next.1 h with ⟨_, rfl⟩ | ⟨_, rfl⟩ <;> simp
  | ldMemVx x => rcases execLdMemVx_eq_next.1 h with ⟨_, rfl⟩ | ⟨_, rfl⟩ <;> simp
  | ldVxMem x => rcases execLdVxMem_eq_next.1 h with ⟨_, rfl⟩ | ⟨_, rfl⟩ <;> simp
  | addI x => rcases execAddI_eq_next.1 h with ⟨_, rfl⟩ | ⟨_, rfl⟩ <;> simp
  | ldVxK x =>
    cases h
    exact .inl rfl
  | cls | ldI _ | ldF _ | ldDTVx _ | ldSTVx _ | ldImm _ _ | addImm _ _ | rnd _ _ | ldReg _ _ | orReg _ _ | andReg _ _
  | xorReg _ _ | addReg _ _ | sub _ _ | shr _ _ | subn _ _ | shl _ _ | ldVxDT _ =>
    cases h
    exact .inr (.inl rfl)

/-- An instruction runs at an address of at most 0xFFE, so it leaves `pc` at one of at most 0x10FE (R26). -/
theorem exec_pcRange {i : Instr} {s t : State} (hs : Inv s) (hpc : s.pc.toNat ≤ 0x0FFE) (h : exec i s = .next t) :
    t.pc.toNat ≤ 0x10FE := by
  rcases exec_pc h with e | e | e | ⟨k, hk, e⟩ | e
  · exact e ▸ hs.pcRange
  · have : (s.pc + 2).toNat ≤ s.pc.toNat + 2 := toNat_add_word_le s.pc 2
    rw [e]
    omega
  · have : (s.pc + 4).toNat ≤ s.pc.toNat + 4 := toNat_add_word_le s.pc 4
    rw [e]
    omega
  · have : s.stack[k].toNat ≤ 0x0FFE := hs.slots k hk
    have : (s.stack[k] + 2).toNat ≤ s.stack[k].toNat + 2 := toNat_add_word_le s.stack[k] 2
    rw [e]
    omega
  · exact e

/-- A call pushes its own address, which is at most 0xFFE; no other instruction writes a slot or occupies one more. -/
theorem exec_slots {i : Instr} {s t : State} (hs : Inv s) (hpc : s.pc.toNat ≤ 0x0FFE) (h : exec i s = .next t)
    (k : Fin 16) (hk : k.val < t.sp.val) : t.stack[k].toNat ≤ 0x0FFE := by
  by_cases hcall : ∃ nnn, i = .call nnn
  · obtain ⟨nnn, rfl⟩ := hcall
    rcases execCall_eq_next.1 h with ⟨_, rfl⟩ | ⟨_, rfl⟩
    · by_cases hsk : s.sp.val = k.val
      · simpa [Vector.getElem_set, hsk] using hpc
      · simp only at hk
        simpa [Vector.getElem_set, hsk] using hs.slots k (by omega)
    · exact hs.slots k hk
  · rw [not_exists] at hcall
    have f := exec_footprint h
    rw [f.stack hcall]
    refine hs.slots k (Nat.lt_of_lt_of_le hk ?_)
    by_cases hret : i = .ret
    · subst hret
      rcases execRet_eq_next.1 h with ⟨_, rfl⟩ | ⟨_, rfl⟩
      · exact Nat.sub_le _ _
      · exact Nat.le_refl _
    · rw [f.sp hcall hret]

/-- The two stores check their addresses first (R66), so they keep the canonical form; no other instruction writes memory. -/
theorem exec_memory_wf {i : Instr} {s t : State} (hs : Inv s) (h : exec i s = .next t) : Memory.wf t.config t.mem := by
  have f := exec_footprint h
  by_cases hB : ∃ x, i = .ldB x
  · obtain ⟨x, rfl⟩ := hB
    rcases execLdB_eq_next.1 h with ⟨hb, rfl⟩ | ⟨_, rfl⟩
    · exact Memory.pokeList_wf _ hs.memory (by simpa using hb)
    · exact hs.memory
  by_cases hM : ∃ x, i = .ldMemVx x
  · obtain ⟨x, rfl⟩ := hM
    rcases execLdMemVx_eq_next.1 h with ⟨hb, rfl⟩ | ⟨_, rfl⟩
    · exact Memory.pokeList_wf _ hs.memory (by rw [length_firstRegs]; omega)
    · exact hs.memory
  rw [f.config, f.mem (not_exists.1 hB) (not_exists.1 hM)]
  exact hs.memory

/-- Only `Fx0A` starts a key wait, and it leaves everything the fetch reads as it was. -/
theorem exec_waiting {i : Instr} {s t : State} {r : Reg} (hm : s.mode = .running) (h : exec i s = .next t)
    (hr : t.mode = .awaitingKey r) : i = .ldVxK r ∧ t.fetch = s.fetch ∧ t.romLoadable = s.romLoadable := by
  rcases exec_cases i s with ⟨u, hu, he⟩ | ⟨x, rfl, hx⟩ | ⟨f, hf, _⟩
  · cases hu.symm.trans h
    rw [he.mode, hm] at hr
    cases hr
  · cases hx.symm.trans h
    cases hr
    exact ⟨rfl, rfl, rfl⟩
  · cases raiseFault_eq_next.1 (hf.symm.trans h)
    cases hr

/-- An instruction fetched from memory keeps the invariant. -/
theorem exec_inv {i : Instr} {w : Word} {s t : State} (hs : Inv s) (hm : s.mode = .running) (hrom : s.romLoadable = false)
    (hw : s.fetch = .ok w) (hd : decode w = .instr i) (h : exec i s = .next t) : Inv t where
  pcRange := exec_pcRange hs (pc_le_of_fetch hw) h
  slots := exec_slots hs (pc_le_of_fetch hw) h
  waiting r hr := by
    obtain ⟨rfl, hfetch, hload⟩ := exec_waiting hm h hr
    rw [hfetch, hload, encode_of_decode hd]
    exact ⟨hw, hrom⟩
  memory := exec_memory_wf hs h
  parameters := (exec_footprint h).config ▸ hs.parameters

/-! ## The events -/

/-- An unmatched word is fetched at an address of at most 0xFFE, and skipping it goes on 2 from there (R301). -/
theorem unmatchedWord_inv {w : Word} {s t : State} (hs : Inv s) (hm : s.mode = .running) (hpc : s.pc.toNat ≤ 0x0FFE)
    (h : unmatchedWord w s = .next t) : Inv t := by
  rcases unmatchedWord_eq_next.1 h with ⟨_, rfl⟩ | ⟨_, rfl⟩
  · have : (s.pc + 2).toNat ≤ s.pc.toNat + 2 := toNat_add_word_le s.pc 2
    refine ⟨by simp only; omega, hs.slots, fun r hr => ?_, hs.memory, hs.parameters⟩
    cases hm.symm.trans hr
  · exact raiseFault_inv hs rfl

theorem traced_inv {s : State} (hs : Inv s) (w : Word) (name : String) : Inv (s.traced w name) := hs.of_frame rfl

theorem beginStep_inv {s : State} (hs : Inv s) (b : Byte) : Inv (s.beginStep b) :=
  hs.of_agree rfl rfl rfl rfl rfl fun _ hr => ⟨hr, fun _ => rfl⟩

/-- Fetch, decode and execute keep the invariant: a fetch fault halts, an unmatched word is skipped or halts, an instruction runs. -/
theorem fetchAndRun_inv {s t : State} (hs : Inv s) (hm : s.mode = .running) (hrom : s.romLoadable = false)
    (h : fetchAndRun s = .next t) : Inv t := by
  rcases fetchAndRun_cases s with ⟨a, _, e⟩ | ⟨w, g, hw, _, e⟩ | ⟨w, i, hw, hd, e⟩
  · exact raiseFault_inv hs (e.symm.trans h)
  · exact unmatchedWord_inv (traced_inv hs w _) hm (pc_le_of_fetch hw) (e.symm.trans h)
  · exact exec_inv (traced_inv hs w _) hm hrom hw hd (e.symm.trans h)

theorem stepEvent_inv {s t : State} {b : Byte} (hs : Inv s) (h : stepEvent b s = .next t) : Inv t := by
  have hb := beginStep_inv hs b
  cases hm : s.mode with
  | running => exact fetchAndRun_inv hb hm rfl ((stepEvent_running b hm).symm.trans h)
  | awaitingKey r =>
    cases (stepEvent_awaitingKey b hm).symm.trans h
    exact hb.of_frame rfl
  | halted f =>
    cases (stepEvent_halted b hm).symm.trans h
    exact hb.of_frame rfl

/-- The reset state meets the invariant: the stack is empty, memory lists nothing, and the machine runs. -/
theorem resetWith_inv {c : Config} (hc : c.WellFormed) : Inv (State.resetWith c) where
  pcRange := (by decide : (0x0200 : Word).toNat ≤ 0x10FE)
  slots _ hk := absurd hk (Nat.not_lt_zero _)
  waiting := nofun
  memory := Memory.nil_wf c
  parameters := hc

theorem resetEvent_inv {s : State} (hs : Inv s) : Inv (resetEvent s) :=
  (resetWith_inv hs.parameters).of_agree rfl rfl rfl rfl rfl nofun

/-- A ROM that fits lies below 4096 (R77), and no key wait is pending while one can be loaded. -/
theorem loadRom_inv {rom : List Byte} {s t : State} (hs : Inv s) (h : loadRom rom s = .next t) : Inv t := by
  unfold loadRom at h
  split at h
  · rename_i hrom
    split at h
    · rename_i hfits
      cases h
      refine ⟨hs.pcRange, hs.slots, fun r hr => ?_, Memory.pokeList_wf _ hs.memory (by omega), hs.parameters⟩
      cases hrom.symm.trans (hs.waiting r hr).2
    · cases h
      exact hs.of_frame rfl
  · cases h

/-- A key wait waits on an instruction fetched at an address of at most 0xFFE, and its completion goes on 2 from there (R213). -/
theorem completeKeyWait_inv {s : State} {r : Reg} (hs : Inv s) (hm : s.mode = .awaitingKey r) (k : Key) :
    Inv (completeKeyWait r k s) where
  pcRange := by
    have hpc := pc_le_of_fetch (hs.waiting r hm).1
    have : (s.pc + 2).toNat ≤ s.pc.toNat + 2 := toNat_add_word_le s.pc 2
    simp only [completeKeyWait]
    omega
  slots := hs.slots
  waiting := nofun
  memory := hs.memory
  parameters := hs.parameters

theorem keyDown_inv {s : State} (hs : Inv s) (k : Key) : Inv (keyDown k s) := by
  cases hk : s.keys[k] with
  | true =>
    rw [keyDown_held hk]
    exact hs
  | false =>
    have hset : Inv { s with keys := s.keys.set k.val true k.isLt } := hs.of_frame rfl
    by_cases hm : ∃ r, s.mode = .awaitingKey r
    · obtain ⟨r, hm⟩ := hm
      rw [keyDown_completes hk hm]
      exact completeKeyWait_inv hset hm k
    · rw [keyDown_sets hk (not_exists.1 hm)]
      exact hset

/-- Every event keeps the invariant. -/
theorem applyEvent_inv {e : Event} {s t : State} (hs : Inv s) (h : applyEvent e s = .next t) : Inv t := by
  cases e with
  | reset =>
    cases h
    exact resetEvent_inv hs
  | loadRom rom => exact loadRom_inv hs h
  | step b => exact stepEvent_inv hs h
  | tick =>
    cases h
    exact hs.of_frame rfl
  | keyDown k =>
    cases h
    exact keyDown_inv hs k
  | keyUp k =>
    cases h
    exact hs.of_frame rfl

/-! ## The obligations -/

/-- Settles O58: the step is the oldest queued event or a `step` event, and each event keeps the invariant. -/
theorem everyStepKeepsTheInvariant : Obligations.EveryStepKeepsTheInvariant := by
  intro s t hs h
  cases hq : s.inputs with
  | nil =>
    rw [step_idle hq] at h
    exact stepEvent_inv (hs.of_frame rfl) h
  | cons e rest =>
    rw [step_queued hq] at h
    exact applyEvent_inv (hs.of_frame rfl) h

/-- Settles O59, from the invariant of a reset under any parameters within the constraint. -/
theorem resetMeetsTheInvariant : Obligations.ResetMeetsTheInvariant :=
  ⟨fun _ hc => resetWith_inv hc, resetWith_inv (by decide)⟩

/-- Settles O60, by induction on the run: reset meets the invariant, a delivery leaves all it reads, and every step keeps it. -/
theorem reachableStatesMeetTheInvariant : Obligations.ReachableStatesMeetTheInvariant := by
  intro c s hc hs
  induction hs with
  | reset => exact resetWith_inv hc
  | event e _ ih => exact ih.of_frame rfl
  | step _ h ih => exact everyStepKeepsTheInvariant _ _ ih h

end Sys2Proof.Machine
end

section
/-! PROOFS. Memory (R60-R77): what the bounds check reports, what a ROM load does, and that a store is seen by the next fetch. -/

namespace Sys2Proof.Machine

/-! ## The bounds check (R66, R67) -/

/-- Settles O47: the check passes when the last address does, and the lowest out-of-range address is the larger of the base and 4096. -/
theorem boundsCheckReportsTheLowestBadAddress : Obligations.BoundsCheckReportsTheLowestBadAddress := by
  refine fun base count => ⟨badAddress_eq_none.trans ⟨fun h k hk => by omega, fun h => ?_⟩,
    fun a => badAddress_eq_some.trans ⟨?_, ?_⟩⟩
  · have hlast := h (count - 1)
    omega
  · rintro ⟨hcount, hend, rfl⟩
    exact ⟨⟨max base 4096 - base, by omega, by omega⟩, by omega, fun k _ hk => by omega⟩
  · rintro ⟨⟨k, hk, rfl⟩, hbad, hlowest⟩
    have hle := hlowest (max base 4096 - base)
    omega

/-! ## Loading a ROM (R77) -/

theorem loadRom_fits {s : State} {rom : List Byte} (h : s.romLoadable = true) (hlen : rom.length ≤ 3584) :
    loadRom rom s = .next { s.storeBytes 0x200 rom with romLoadable := false, result := .ok } := by
  rw [loadRom, if_pos h, if_pos hlen]

theorem loadRom_tooLarge {s : State} {rom : List Byte} (h : s.romLoadable = true) (hlen : 3584 < rom.length) :
    loadRom rom s = .next { s with result := .romTooLarge rom.length } := by
  rw [loadRom, if_pos h, if_neg (Nat.not_le.2 hlen)]

theorem loadRom_outOfOrder {s : State} {rom : List Byte} (h : s.romLoadable = false) :
    loadRom rom s = .refused .loadRomOutOfOrder := by
  rw [loadRom, if_neg (by simp [h])]

/-- Settles O19: the step is the queued load, which goes one of three ways; the stored bytes are those of a block store. -/
theorem loadRomStoresTheRomOnce : Obligations.LoadRomStoresTheRomOnce := by
  intro s rom rest hq
  rw [step_queued hq]
  refine ⟨fun h hlen => ⟨_, loadRom_fits h hlen, ?_, ?_, rfl⟩,
    fun h hlen => loadRom_tooLarge h hlen, fun h => loadRom_outOfOrder h⟩
  · exact byte_storeBytes_inside { s with inputs := rest } 0x200 rom
  · exact fun a => byte_storeBytes_outside { s with inputs := rest } 0x200 rom

/-! ## The bytes that the two stores write (R232, R233) -/

theorem byte_storeBytes_firstRegs (s : State) (base : Nat) {x j : Reg} (h : j ≤ x) :
    (s.storeBytes base (s.firstRegs x)).byte (base + j.val) = s.getV j := by
  have hj : j.val < (s.firstRegs x).length := by
    rw [length_firstRegs]
    exact Nat.lt_succ_of_le h
  rw [byte_storeBytes_inside s base _ _ hj, getElem_firstRegs]

theorem map_toNat_bcdDigits (b : Byte) :
    (bcdDigits b).map BitVec.toNat = [b.toNat / 100, b.toNat / 10 % 10, b.toNat % 10] := by
  simp only [bcdDigits, List.map_cons, List.map_nil, BitVec.toNat_ofNat, List.cons.injEq, and_true]
  omega

theorem byte_storeBytes_bcdDigits (s : State) (base : Nat) (b : Byte) (k : Nat) (h : k < 3) :
    ((s.storeBytes base (bcdDigits b)).byte (base + k)).toNat = [b.toNat / 100, b.toNat / 10 % 10, b.toNat % 10][k] := by
  rw [byte_storeBytes_inside s base (bcdDigits b) k h]
  exact (List.getElem_map BitVec.toNat).symm.trans (List.getElem_of_eq (map_toNat_bcdDigits b) h)

/-! ## The next fetch (R76) -/

/-- Two further on, where the word there lies in memory, the fetch reads that word's two bytes (R62). -/
theorem fetch_next_word {s t : State} (hpc : s.pc.toNat + 3 ≤ 4095) (ht : t.pc = s.pc + 2) :
    t.fetch = .ok (t.byte (s.pc.toNat + 2) ++ t.byte (s.pc.toNat + 3)) := by
  have hnext : t.pc.toNat = s.pc.toNat + 2 := by
    rw [ht]
    exact BitVec.toNat_add_of_lt (by simp; omega)
  refine fetch_eq_ok.2 ⟨by omega, ?_⟩
  rw [hnext]
  rfl

/-- Settles O46: the store advances `pc` by 2, the fetch there reads both bytes from the memory it left, and each of them is one that the
block store covers or one that it leaves. -/
theorem storedCodeIsFetchedNext : Obligations.StoredCodeIsFetchedNext := by
  refine fun x s hpc => ⟨fun hI => ⟨_, _, _, execLdMemVx_eq_next.2 (.inl ⟨hI, rfl⟩), fetch_next_word hpc rfl, ?_⟩,
    fun hI => ⟨_, _, _, execLdB_eq_next.2 (.inl ⟨by omega, rfl⟩), fetch_next_word hpc rfl, ?_⟩⟩
  · intro a b hab
    obtain rfl : b = (s.storeBytes s.iReg.toNat (s.firstRegs x)).byte a := by
      rcases hab with ⟨rfl, rfl⟩ | ⟨rfl, rfl⟩ <;> rfl
    refine ⟨?_, fun hout => byte_storeBytes_outside _ _ _ (by rw [length_firstRegs]; omega)⟩
    rintro j hj rfl
    exact byte_storeBytes_firstRegs s _ hj
  · intro a b hab
    obtain rfl : b = (s.storeBytes s.iReg.toNat (bcdDigits (s.getV x))).byte a := by
      rcases hab with ⟨rfl, rfl⟩ | ⟨rfl, rfl⟩ <;> rfl
    refine ⟨?_, ?_, ?_, fun hout => byte_storeBytes_outside _ _ _ (by rw [length_bcdDigits]; omega)⟩
    · rintro rfl
      exact byte_storeBytes_bcdDigits s _ _ 0 (by decide)
    · rintro rfl
      exact byte_storeBytes_bcdDigits s _ _ 1 (by decide)
    · rintro rfl
      exact byte_storeBytes_bcdDigits s _ _ 2 (by decide)

end Sys2Proof.Machine
end

section
/-! PROOFS. Decoding as the opcode map's only matching row (R95), the encoder as its inverse (R93, R96), and the unmatched words by family
(R97). -/

namespace Sys2Proof

/-! ## One row at most -/

/-- A word is at most one row's (R95): what one row fixes and the other fixes too would have to differ in the word. -/
theorem row_unique {w : Word} {r q : OpcodeRow} (hr : r ∈ opcodeTable) (hq : q ∈ opcodeTable) (hwr : w &&& r.mask = r.pat)
    (hwq : w &&& q.mask = q.pat) : r = q := by
  have : Std.Symm fun r q : OpcodeRow => r.pat &&& q.mask ≠ q.pat &&& r.mask := ⟨fun _ _ => Ne.symm⟩
  by_contra hne
  apply opcodeTable_disjoint.forall hr hq hne
  rw [← hwr, ← hwq, BitVec.and_assoc, BitVec.and_assoc, BitVec.and_comm r.mask]

/-- A word decodes by the row that it fits. -/
theorem decode_of_row {w : Word} {r : OpcodeRow} (hr : r ∈ opcodeTable) (hw : w &&& r.mask = r.pat) :
    decode w = .instr (r.build w) := by
  unfold decode
  split
  next q hq => rw [row_unique hr (List.mem_of_find?_eq_some hq) hw (by simpa using List.find?_some hq)]
  next hnone => exact absurd (beq_iff_eq.2 hw) (List.find?_eq_none.1 hnone r hr)

/-- A word that no row fits is unmatched, in the group of its family. -/
theorem decode_of_no_row {w : Word} (hno : ∀ r ∈ opcodeTable, w &&& r.mask ≠ r.pat) : decode w = .unmatched (unmatchedGroup w) := by
  have hnone : opcodeTable.find? (fun r => w &&& r.mask == r.pat) = none := by simpa using hno
  rw [decode, hnone]

theorem decode_eq_unmatched_iff {w : Word} {g : UnmatchedGroup} :
    decode w = .unmatched g ↔ (∀ r ∈ opcodeTable, w &&& r.mask ≠ r.pat) ∧ unmatchedGroup w = g := by
  constructor
  · intro h
    have hno : ∀ r ∈ opcodeTable, w &&& r.mask ≠ r.pat := fun r hr hw => by simp [decode_of_row hr hw] at h
    exact ⟨hno, Decoded.unmatched.inj ((decode_of_no_row hno).symm.trans h)⟩
  · rintro ⟨hno, rfl⟩
    exact decode_of_no_row hno

/-! ## The encoder's rows -/

open Laws in
/-- Every instruction's word fits a row that builds the instruction. -/
theorem exists_own_row : ∀ i : Instr, OwnRow.Statement i
  | .cls => OwnRow.cls
  | .ret => OwnRow.ret
  | .jp nnn => OwnRow.jp nnn
  | .call nnn => OwnRow.call nnn
  | .seImm x kk => OwnRow.seImm x kk
  | .sneImm x kk => OwnRow.sneImm x kk
  | .seReg x y => OwnRow.seReg x y
  | .ldImm x kk => OwnRow.ldImm x kk
  | .addImm x kk => OwnRow.addImm x kk
  | .ldReg x y => OwnRow.ldReg x y
  | .orReg x y => OwnRow.orReg x y
  | .andReg x y => OwnRow.andReg x y
  | .xorReg x y => OwnRow.xorReg x y
  | .addReg x y => OwnRow.addReg x y
  | .sub x y => OwnRow.sub x y
  | .shr x y => OwnRow.shr x y
  | .subn x y => OwnRow.subn x y
  | .shl x y => OwnRow.shl x y
  | .sneReg x y => OwnRow.sneReg x y
  | .ldI nnn => OwnRow.ldI nnn
  | .jpV0 nnn => OwnRow.jpV0 nnn
  | .rnd x kk => OwnRow.rnd x kk
  | .drw x y n => OwnRow.drw x y n
  | .skp x => OwnRow.skp x
  | .sknp x => OwnRow.sknp x
  | .ldVxDT x => OwnRow.ldVxDT x
  | .ldVxK x => OwnRow.ldVxK x
  | .ldDTVx x => OwnRow.ldDTVx x
  | .ldSTVx x => OwnRow.ldSTVx x
  | .addI x => OwnRow.addI x
  | .ldF x => OwnRow.ldF x
  | .ldB x => OwnRow.ldB x
  | .ldMemVx x => OwnRow.ldMemVx x
  | .ldVxMem x => OwnRow.ldVxMem x

/-- The instruction's own row is the one its word decodes by. -/
@[simp] theorem decode_encode (i : Instr) : decode (encode i) = .instr i := by
  obtain ⟨r, hr, hw, hb⟩ := exists_own_row i
  rw [decode_of_row hr hw, hb]

/-- Settles O2, by the row that each instruction's word fits, which no other row can share. -/
theorem decodeOfEncodeIsTheInstruction : Obligations.DecodeOfEncodeIsTheInstruction := decode_encode

/-- Settles O3: a word is put together again from the fields that its row reads. -/
theorem encodeOfDecodeIsTheWord : Obligations.EncodeOfDecodeIsTheWord := fun _ _ => encode_of_decode

/-- Settles O4: at most one row fits a word, so the search finds that row wherever it stands. -/
theorem decodeIsTheMatchingRow : Obligations.DecodeIsTheMatchingRow := by
  refine ⟨fun _ _ => decode_of_row, fun _ hno => ⟨_, decode_of_no_row hno⟩, opcodeTable_length,
    fun w r hr q hq hwr hwq => ?_⟩
  obtain rfl := row_unique hr hq hwr hwq
  exact ⟨rfl, rfl⟩

/-! ## The fields that a mask keeps -/

theorem and_fullMask_eq {w p : Word} : w &&& 0xFFFF = p ↔ family w = family p ∧ w = p := by
  rw [show w &&& 0xFFFF = w from BitVec.and_allOnes (x := w)]
  exact ⟨fun h => ⟨h ▸ rfl, h⟩, And.right⟩

theorem and_mask_eq {w p : Word} (hp : p &&& 0xF000 = p) : w &&& 0xF000 = p ↔ family w = family p := by
  have keeps (v : Word) : v &&& 0xF000 = formatA (family v) 0 := by rw [← formatA_mask _ (fieldNNN v), formatA_fields]
  rw [← hp, keeps, keeps p, family_formatA]
  exact ⟨fun h => by simpa using congrArg family h, fun h => by rw [h]⟩

theorem and_maskSub_eq {w p : Word} (hp : p &&& 0xF00F = p) :
    w &&& 0xF00F = p ↔ family w = family p ∧ subNibble w = subNibble p := by
  have keeps (v : Word) : v &&& 0xF00F = formatXYN (family v) 0 0 (subNibble v) := by
    rw [← formatXYN_maskSub _ (fieldX v) (fieldY v), formatXYN_fields]
  rw [← hp, keeps, keeps p, family_formatXYN, subNibble_formatXYN]
  exact ⟨fun h => ⟨by simpa using congrArg family h, by simpa using congrArg subNibble h⟩, fun ⟨hf, hn⟩ => by rw [hf, hn]⟩

theorem and_maskKK_eq {w p : Word} (hp : p &&& 0xF0FF = p) :
    w &&& 0xF0FF = p ↔ family w = family p ∧ fieldKK w = fieldKK p := by
  have keeps (v : Word) : v &&& 0xF0FF = formatXK (family v) 0 (fieldKK v) := by
    rw [← formatXK_maskSub _ (fieldX v), formatXK_fields]
  rw [← hp, keeps, keeps p, family_formatXK, fieldKK_formatXK]
  exact ⟨fun h => ⟨by simpa using congrArg family h, by simpa using congrArg fieldKK h⟩, fun ⟨hf, hk⟩ => by rw [hf, hk]⟩

/-! ## The unmatched words by family -/

/-- The words of each group, row by row of R97's table. -/
def InGroup (w : Word) : UnmatchedGroup → Prop
  | .family0 => family w = 0x0 ∧ w ≠ 0x00E0 ∧ w ≠ 0x00EE
  | .family5 => family w = 0x5 ∧ subNibble w ≠ 0x0
  | .family8 => family w = 0x8 ∧ subNibble w ∈ [0x8, 0x9, 0xA, 0xB, 0xC, 0xD, 0xF]
  | .family9 => family w = 0x9 ∧ subNibble w ≠ 0x0
  | .familyE => family w = 0xE ∧ fieldKK w ∉ [0x9E, 0xA1]
  | .familyF => family w = 0xF ∧ fieldKK w ∉ [0x07, 0x0A, 0x15, 0x18, 0x1E, 0x29, 0x33, 0x55, 0x65]

theorem unmatchedGroup_of_inGroup {w : Word} {g : UnmatchedGroup} (h : InGroup w g) : unmatchedGroup w = g := by
  cases g <;> simp [unmatchedGroup, h.1]

/-- The sub-opcodes that family 8 leaves free are those that none of its nine rows fixes. -/
theorem free_subNibble8_iff (n : BitVec 4) : n ∈ [0x8, 0x9, 0xA, 0xB, 0xC, 0xD, 0xF] ↔
    n ≠ 0x0 ∧ n ≠ 0x1 ∧ n ≠ 0x2 ∧ n ≠ 0x3 ∧ n ≠ 0x4 ∧ n ≠ 0x5 ∧ n ≠ 0x6 ∧ n ≠ 0x7 ∧ n ≠ 0xE := by
  revert n; decide

theorem family_cases (f : BitVec 4) : f = 0x0 ∨ f = 0x1 ∨ f = 0x2 ∨ f = 0x3 ∨ f = 0x4 ∨ f = 0x5 ∨ f = 0x6 ∨ f = 0x7 ∨
    f = 0x8 ∨ f = 0x9 ∨ f = 0xA ∨ f = 0xB ∨ f = 0xC ∨ f = 0xD ∨ f = 0xE ∨ f = 0xF := by
  revert f; decide

/-- No row fits a word exactly when it lies in the group of its family: each row fixes the family and a part of the rest. -/
theorem no_row_iff_inGroup {w : Word} : (∀ r ∈ opcodeTable, w &&& r.mask ≠ r.pat) ↔ InGroup w (unmatchedGroup w) := by
  simp only [opcodeTable, opcodeRows1, opcodeRows2, opcodeRows3, opcodeRows4, List.cons_append, List.nil_append,
    List.forall_mem_cons, ne_eq, and_fullMask_eq]
  simp (disch := decide) only [and_mask_eq, and_maskSub_eq, and_maskKK_eq]
  -- In a family the rows of the others say nothing, and its own ask for the sub-opcodes that R97's row leaves out.
  rcases family_cases (family w) with h | h | h | h | h | h | h | h | h | h | h | h | h | h | h | h
  all_goals
    simp only [unmatchedGroup, h, InGroup, free_subNibble8_iff]
    generalize subNibble w = n, fieldKK w = k
    simp [family, subNibble, fieldKK]

theorem decode_eq_unmatched_iff_inGroup {w : Word} {g : UnmatchedGroup} : decode w = .unmatched g ↔ InGroup w g := by
  rw [decode_eq_unmatched_iff, no_row_iff_inGroup]
  constructor
  · rintro ⟨h, rfl⟩
    exact h
  · intro h
    have hg := unmatchedGroup_of_inGroup h
    exact ⟨hg ▸ h, hg⟩

/-- Settles O5: of the six rows of R97, the one of the group `g` is the one that counts. -/
theorem unmatchedWordsAreTheSixGroups : Obligations.UnmatchedWordsAreTheSixGroups := by
  intro w g
  rw [decode_eq_unmatched_iff_inGroup]
  cases g <;> simp only [InGroup, reduceCtorEq, false_and, true_and, false_or, or_false]

/-! ## Worked words -/

/-- Settles O1: each matched word is the encoding of its instruction, and each unmatched one lies in its group. -/
theorem workedWordsDecodeAsR104Says : Obligations.WorkedWordsDecodeAsR104Says :=
  have unmatched {w : Word} {g : UnmatchedGroup} (h : InGroup w g) : decode w = .unmatched g := decode_eq_unmatched_iff_inGroup.2 h
  ⟨decode_encode (.addReg 0xA 0xB), decode_encode (.drw 1 2 5), decode_encode (.ldVxK 3), decode_encode (.seReg 1 2),
    unmatched ⟨rfl, by decide⟩, decode_encode .cls, unmatched ⟨rfl, by decide, by decide⟩,
    unmatched ⟨rfl, by decide, by decide⟩, decode_encode (.skp 1), unmatched ⟨rfl, by decide⟩, rfl⟩

end Sys2Proof
end

section
/-! PROOFS. The step cycle (R120-R125): which event a step is, what a `step` event does in each mode, and that every step completes. -/

namespace Sys2Proof.Machine

/-! ## Which event a step is (R120, R121) -/

/-- Settles O6, from the two ways a step takes its event. -/
theorem stepIsTheNextEvent : Obligations.StepIsTheNextEvent := fun _ => ⟨fun _ _ hq => step_queued hq, step_idle⟩

/-! ## A `step` event while RUNNING (R122) -/

/-- Settles O7: with the word fetched and decoded, the idle and the queued step are both a `step` event that runs the instruction. -/
theorem stepRunsTheDecodedInstruction : Obligations.StepRunsTheDecodedInstruction := by
  intro s w i hm hpc hw hd
  have hfetch : s.fetch = .ok w := fetch_eq_ok.2 ⟨hpc, hw⟩
  refine ⟨fun hq => ⟨mnemonicOf i, ?_⟩, fun b rest hq => ⟨mnemonicOf i, ?_⟩⟩
  · rw [step_idle hq]
    exact stepEvent_instr (s := { s with draws := s.draws + 1 }) _ hm hfetch hd
  · rw [step_queued hq]
    exact stepEvent_instr (s := { s with inputs := rest }) b hm hfetch hd

/-- Settles O8: the fetch is out of range, and the fault entry changes the mode and the result only. -/
theorem fetchOutOfRangeHalts : Obligations.FetchOutOfRangeHalts := by
  intro s b rest hm hq hpc
  rw [step_queued hq]
  exact stepEvent_fetchFault (s := { s with inputs := rest }) b hm (fetch_eq_error.2 ⟨hpc, rfl⟩)

/-! ## A `step` event while waiting or halted (R123, R124) -/

/-- Settles O10, from the `step` event in AWAITING_KEY. -/
theorem stepWhileAwaitingKeyChangesNothing : Obligations.StepWhileAwaitingKeyChangesNothing := by
  intro s r b rest hm hq
  rw [step_queued hq]
  exact stepEvent_awaitingKey (s := { s with inputs := rest }) b hm

/-- Settles O11, from the `step` event in HALTED. -/
theorem stepWhileHaltedChangesNothing : Obligations.StepWhileHaltedChangesNothing := by
  intro s f b rest hm hq
  rw [step_queued hq]
  exact stepEvent_halted (s := { s with inputs := rest }) b hm

/-! ## Every step completes -/

/-- Every instruction answers a next state, a fault included (R308). -/
theorem exec_completes (i : Instr) (s : State) : ∃ t, exec i s = .next t := by
  rcases exec_cases i s with ⟨t, ht, _⟩ | ⟨x, _, hx⟩ | ⟨f, hf, _⟩
  · exact ⟨t, ht⟩
  · exact ⟨_, hx⟩
  · exact ⟨_, hf⟩

theorem unmatchedWord_completes (w : Word) (s : State) : ∃ t, unmatchedWord w s = .next t := by
  cases hc : s.config.strictOpcodes with
  | false => exact ⟨_, unmatchedWord_eq_next.2 (.inl ⟨hc, rfl⟩)⟩
  | true => exact ⟨_, unmatchedWord_eq_next.2 (.inr ⟨hc, rfl⟩)⟩

/-- A `step` event answers a next state in every mode, and whatever it fetches. -/
theorem stepEvent_completes (b : Byte) (s : State) : ∃ t, stepEvent b s = .next t := by
  cases hm : s.mode with
  | awaitingKey r => exact ⟨_, stepEvent_awaitingKey b hm⟩
  | halted f => exact ⟨_, stepEvent_halted b hm⟩
  | running =>
    rw [stepEvent_running b hm]
    rcases fetchAndRun_cases (s.beginStep b) with ⟨a, _, e⟩ | ⟨w, g, _, _, e⟩ | ⟨w, i, _, _, e⟩ <;> rw [e]
    · exact ⟨_, rfl⟩
    · exact unmatchedWord_completes w _
    · exact exec_completes i _

/-- While a ROM can be loaded a load answers a next state, whether the ROM fits or not (R77). -/
theorem loadRom_completes {s : State} (rom : List Byte) (h : s.romLoadable = true) : ∃ t, loadRom rom s = .next t := by
  by_cases hlen : rom.length ≤ 3584
  · exact ⟨_, loadRom_fits h hlen⟩
  · exact ⟨_, loadRom_tooLarge h (Nat.lt_of_not_le hlen)⟩

/-- Settles O56, event by event: only a load can be refused, and only once `romLoadable` is gone. -/
theorem everyStepCompletes : Obligations.EveryStepCompletes := by
  intro s
  cases hq : s.inputs with
  | nil =>
    rw [step_idle hq]
    exact .inl (stepEvent_completes _ _)
  | cons e rest =>
    rw [step_queued hq]
    cases e with
    | loadRom rom =>
      rcases Bool.eq_false_or_eq_true s.romLoadable with hrom | hrom
      · exact .inl (loadRom_completes (s := { s with inputs := rest }) rom hrom)
      · exact .inr ⟨⟨rom, rest, rfl⟩, hrom, loadRom_outOfOrder (s := { s with inputs := rest }) hrom⟩
    | step b => exact .inl (stepEvent_completes b _)
    | reset | tick | keyDown k | keyUp k => exact .inl ⟨_, rfl⟩

/-! ## The result of a `step` event and the mode after it (R125) -/

/-- An instruction meets none of the fatal conditions that it can raise: the stack has room for a call and something for a return, and every
byte that it accesses lies in memory (R302-R304). -/
def AvoidsFaults (i : Instr) (s : State) : Prop :=
  (∀ nnn, i = .call nnn → s.sp.val < 16) ∧ (i = .ret → 0 < s.sp.val) ∧
  (∀ x y n, i = .drw x y n → n.val = 0 ∨ s.iReg.toNat + n.val - 1 ≤ 4095) ∧
  (∀ x, i = .ldB x → s.iReg.toNat + 2 ≤ 4095) ∧
  (∀ x, i = .ldMemVx x ∨ i = .ldVxMem x → s.iReg.toNat + x.val ≤ 4095)

/-- An instruction that ends with Ok took the branch in which it does not fault. -/
theorem avoidsFaults_of_ok {i : Instr} {s t : State} (h : exec i s = .next t) (ht : t.result = .ok) : AvoidsFaults i s := by
  refine ⟨?_, ?_, ?_, ?_, ?_⟩
  · rintro nnn rfl
    rcases execCall_eq_next.1 h with ⟨hroom, _⟩ | ⟨_, rfl⟩
    · exact hroom
    · cases ht
  · rintro rfl
    rcases execRet_eq_next.1 h with ⟨hoccupied, _⟩ | ⟨_, rfl⟩
    · exact hoccupied
    · cases ht
  · rintro x y n rfl
    rcases execDrw_eq_next.1 h with ⟨hfits, _⟩ | ⟨_, rfl⟩
    · omega
    · cases ht
  · rintro x rfl
    rcases execLdB_eq_next.1 h with ⟨hfits, _⟩ | ⟨_, rfl⟩
    · omega
    · cases ht
  · rintro x (rfl | rfl)
    · rcases execLdMemVx_eq_next.1 h with ⟨hfits, _⟩ | ⟨_, rfl⟩
      · exact hfits
      · cases ht
    · rcases execLdVxMem_eq_next.1 h with ⟨hfits, _⟩ | ⟨_, rfl⟩
      · exact hfits
      · cases ht

theorem ne_ldVxK_of_ok {i : Instr} {s t : State} (h : exec i s = .next t) (ht : t.result = .ok) (x : Reg) : i ≠ .ldVxK x := by
  rintro rfl
  cases h
  cases ht

/-- Settles O12: the mode, then the verdict on the fetched word, then the way the instruction ends give the row. -/
theorem stepResultAndModeAgree : Obligations.StepResultAndModeAgree := by
  intro s t b h
  cases hm : s.mode with
  | awaitingKey r =>
    cases (stepEvent_awaitingKey b hm).symm.trans h
    exact .inr (.inl ⟨r, rfl, hm, .inr rfl⟩)
  | halted f =>
    cases (stepEvent_halted b hm).symm.trans h
    exact .inr (.inr (.inr (.inr ⟨f, rfl, rfl, hm⟩)))
  | running =>
    rw [stepEvent_running b hm] at h
    rcases fetchAndRun_cases (s.beginStep b) with ⟨a, _, e⟩ | ⟨w, g, hw, hd, e⟩ | ⟨w, i, hw, hd, e⟩ <;> rw [e] at h
    · cases raiseFault_eq_next.1 h
      exact .inr (.inr (.inr (.inl ⟨_, rfl, rfl, rfl⟩)))
    · rcases unmatchedWord_eq_next.1 h with ⟨hc, rfl⟩ | ⟨_, rfl⟩
      · exact .inr (.inr (.inl ⟨w, g, rfl, hw, hd, hc, rfl, hm⟩))
      · exact .inr (.inr (.inr (.inl ⟨_, rfl, rfl, rfl⟩)))
    · rcases exec_cases i ((s.beginStep b).traced w (mnemonicOf i)) with ⟨u, hu, he⟩ | ⟨x, rfl, hx⟩ | ⟨f, hf, _⟩
      · cases hu.symm.trans h
        have hguards := avoidsFaults_of_ok h he.result
        exact .inl ⟨he.result, rfl, he.mode.trans hm, w, i, hw, hd, ne_ldVxK_of_ok h he.result, hguards⟩
      · cases hx.symm.trans h
        obtain rfl := encode_of_decode hd
        exact .inr (.inl ⟨x, rfl, rfl, .inl ⟨rfl, hw⟩⟩)
      · cases raiseFault_eq_next.1 (hf.symm.trans h)
        exact .inr (.inr (.inr (.inl ⟨f, rfl, rfl, rfl⟩)))

/-! ## A key wait over several steps (S10) -/

/-- A run that completes took a first step and completed from there. -/
theorem run_succ_eq_next {n : Nat} {s t : State} (h : core.run (n + 1) s = .next t) :
    ∃ u, step s = .next u ∧ core.run n u = .next t := by
  cases hs : step s with
  | next u => exact ⟨u, rfl, (run_succ n hs).symm.trans h⟩
  | fault r => cases r
  | refused r =>
    have hs' : core.step s = .refused r := hs
    simp only [Host.Core.run, hs'] at h
    cases h

/-- A run goes on from the state that its first steps end in. -/
theorem run_add {m : Nat} (n : Nat) {s t : State} (h : core.run m s = .next t) : core.run (m + n) s = core.run n t := by
  induction m generalizing s with
  | zero =>
    cases h
    rw [Nat.zero_add]
  | succ m ih =>
    obtain ⟨u, hs, hu⟩ := run_succ_eq_next h
    rw [Nat.succ_add, run_succ _ hs]
    exact ih hu

/-- Any number of queued `step` events leave a waiting machine as it was but for the inputs and outputs of those steps (R123). -/
theorem run_steps_awaitingKey {r : Reg} (bs : List Byte) {s : State} {rest : List Event} (hm : s.mode = .awaitingKey r)
    (hq : s.inputs = bs.map Event.step ++ rest) :
    ∃ res tr b l, core.run bs.length s =
        .next { s with inputs := rest, result := res, trace := tr, rnd := b, romLoadable := l } ∧
      (s.result = .waiting ∨ bs ≠ [] → res = .waiting) := by
  induction bs generalizing s with
  | nil =>
    cases hq
    exact ⟨_, _, _, _, rfl, fun h => h.resolve_right (· rfl)⟩
  | cons b bs ih =>
    have hs := stepWhileAwaitingKeyChangesNothing s r b _ hm hq
    obtain ⟨res, tr, b', l, hrun, hres⟩ := ih (s := { s with
      result := .waiting, rnd := b, inputs := bs.map Event.step ++ rest, romLoadable := false, trace := none }) hm rfl
    exact ⟨res, tr, b', l, (run_succ _ hs).trans hrun, fun _ => hres (.inl rfl)⟩

/-- The step that takes a key's transition to down completes a pending wait (R213). -/
theorem step_keyDown_completes {s : State} {r : Reg} {k : Key} {rest : List Event} (hm : s.mode = .awaitingKey r)
    (hk : s.keys[k] = false) (hq : s.inputs = .keyDown k :: rest) :
    step s = .next (completeKeyWait r k { s with inputs := rest, keys := s.keys.set k.val true k.isLt }) := by
  rw [step_queued hq]
  exact congrArg Host.Outcome.next (keyDown_completes (s := { s with inputs := rest }) hk hm)

theorem toNat_keyByte (k : Key) : (keyByte k).toNat = k.val := by
  simp only [keyByte, BitVec.toNat_ofNat]
  omega

/-- Settles O39, by induction on the steps: they leave the wait pending, and the `key_down` event behind them completes it. -/
theorem keyWaitHoldsUntilAKeyGoesDown : Obligations.KeyWaitHoldsUntilAKeyGoesDown := by
  intro bs s r k rest hm hk hq
  obtain ⟨res, tr, b, l, hrun, hres⟩ := run_steps_awaitingKey bs hm hq
  have hdown := step_keyDown_completes (s := { s with
    inputs := .keyDown k :: rest, result := res, trace := tr, rnd := b, romLoadable := l }) hm hk rfl
  refine ⟨⟨_, hrun, fun h => hres (.inr h), rfl⟩, _, (run_add 1 hrun).trans (run_succ 0 hdown), ?_, ?_, ?_, ?_, rfl⟩
  · exact (congrArg BitVec.toNat (getV_setV_same _ r _)).trans (toNat_keyByte k)
  · exact fun j hj => getV_setV_ne _ _ hj
  · exact Vector.getElem_set_self k.isLt
  · exact fun j hj => Vector.getElem_set_ne k.isLt j.isLt fun e => hj (Fin.ext e.symm)

end Sys2Proof.Machine
end

section
/-! PROOFS. Control transfer (R150-R153): the two jumps, and the call and the return with what each finds on the stack. -/

namespace Sys2Proof.Machine

/-! ## Jumps (R151, R153) -/

theorem toNat_zextAddr (nnn : Addr) : (zextAddr nnn).toNat = nnn.toNat := BitVec.toNat_setWidth_of_le (by decide)

theorem toNat_zextByte (b : Byte) : (zextByte b).toNat = b.toNat := BitVec.toNat_setWidth_of_le (by decide)

/-- A 12-bit address and a byte add up to less than 2^16, so the target of `Bnnn` is their exact sum. -/
theorem toNat_zextAddr_add_zextByte (nnn : Addr) (b : Byte) : (zextAddr nnn + zextByte b).toNat = nnn.toNat + b.toNat := by
  rw [BitVec.toNat_add_of_lt, toNat_zextAddr, toNat_zextByte]
  have := toNat_zextAddr_le nnn
  have := toNat_zextByte_le b
  omega

/-- Settles O23: both instructions are a jump, to the widened address and to its exact sum with V0. -/
theorem jumpsSetPc : Obligations.JumpsSetPc := fun nnn s =>
  ⟨⟨_, rfl, toNat_zextAddr nnn, rfl⟩, ⟨_, rfl, toNat_zextAddr_add_zextByte nnn (s.getV 0), rfl⟩⟩

/-! ## Call and return (R152, R150) -/

/-- Settles O24: with room the pushed slot is the one at `sp`, and the write of one slot keeps the others. -/
theorem callPushesItsOwnAddress : Obligations.CallPushesItsOwnAddress := by
  intro nnn s
  refine ⟨fun hroom => ?_, fun hfull => execCall_eq_next.2 (.inr ⟨hfull, rfl⟩)⟩
  refine ⟨_, execCall_eq_next.2 (.inl ⟨hroom, rfl⟩), toNat_zextAddr nnn, rfl, fun k hk => ?_, fun k hk => ?_, rfl⟩
  · simp only [Fin.getElem_fin, hk, Vector.getElem_set_self]
  · exact Vector.getElem_set_ne hroom k.isLt hk.symm

/-- Settles O25: with a slot occupied the popped one is the one below `sp`, and nothing is written to the stack. -/
theorem returnGoesPastThePoppedAddress : Obligations.ReturnGoesPastThePoppedAddress := by
  intro s
  refine ⟨fun hoccupied => ?_, fun hempty => execRet_eq_next.2 (.inr ⟨hempty, rfl⟩)⟩
  refine ⟨_, execRet_eq_next.2 (.inl ⟨hoccupied, rfl⟩), rfl, fun k hk => ?_, rfl⟩
  simp only [Fin.getElem_fin, hk]

/-- Settles O26: the slot that the return pops is the one that the call pushed, which holds the call's own address. -/
theorem returnAfterCallResumesAfterTheCall : Obligations.ReturnAfterCallResumesAfterTheCall := by
  intro nnn s u hroom hkept
  obtain ⟨t, hcall, -, hcallSp, hpushed, -, -⟩ := (callPushesItsOwnAddress nnn s).1 hroom
  obtain ⟨husp, hslots⟩ := hkept t hcall
  have hdepth : u.sp.val = s.sp.val + 1 := by rw [husp, hcallSp]
  obtain ⟨w, hret, hretSp, hpopped, -⟩ := (returnGoesPastThePoppedAddress u).1 (by omega)
  obtain ⟨k, hk⟩ : ∃ k : Fin 16, k.val = s.sp.val := ⟨⟨_, hroom⟩, rfl⟩
  refine ⟨w, hret, ?_, Fin.ext (by omega)⟩
  calc w.pc = u.stack[k] + 2 := hpopped k (by omega)
    _ = t.stack[k] + 2 := by rw [hslots k (by omega)]
    _ = s.pc + 2 := by rw [hpushed k hk]

end Sys2Proof.Machine
end

section
/-! PROOFS. Conditional skips on registers (R160-R163): each one compares two bytes, for equality or for difference. -/

namespace Sys2Proof.Machine

theorem skipIf_beq (a b : Byte) (s : State) :
    skipIf (a == b) s = .next { s with pc := if a = b then s.pc + 4 else s.pc + 2, result := .ok } := by
  simp only [skipIf, beq_iff_eq]

/-- A skip on a difference is the complement of the skip on equality (R161). -/
theorem skipIf_bne (a b : Byte) (s : State) :
    skipIf (a != b) s = .next { s with pc := if a = b then s.pc + 2 else s.pc + 4, result := .ok } := by
  simp only [skipIf, bne_iff_ne, ite_not]

/-- Settles O27: the byte and the register forms compare alike, so each skip is one of the two comparisons. -/
theorem registerSkipsMovePcByFourOrTwo : Obligations.RegisterSkipsMovePcByFourOrTwo := fun x y kk s =>
  ⟨skipIf_beq (s.getV x) kk s, skipIf_bne (s.getV x) kk s,
    skipIf_beq (s.getV x) (s.getV y) s, skipIf_bne (s.getV x) (s.getV y) s⟩

end Sys2Proof.Machine
end

section
/-! PROOFS. Constants and the random byte (R170-R173): an instruction that writes one register and moves on, and the load of `I`. -/

namespace Sys2Proof.Machine

/-- What an instruction does that writes one register and moves on: the flag register is kept like any other, unless it is the one written
(R21, D23). -/
theorem advance_setV_writes_one_register (s : State) (x : Reg) (b : Byte) :
    ∃ t, advance (s.setV x b) = .next t ∧ t.getV x = b ∧ (∀ j, j ≠ x → t.getV j = s.getV j) ∧
      t = { s with v := t.v, pc := s.pc + 2, result := .ok } :=
  ⟨_, rfl, getV_setV_same s x b, fun _ hj => getV_setV_ne s b hj, rfl⟩

/-- Settles O29: each writes one register, the load the byte itself and the addition the sum of two bytes, which wraps at 256. -/
theorem immediateLoadAndAddWriteOneRegister : Obligations.ImmediateLoadAndAddWriteOneRegister := by
  intro x kk s
  obtain ⟨t, hadd, hsum, hkept, hframe⟩ := advance_setV_writes_one_register s x (s.getV x + kk)
  have hwraps : (t.getV x).toNat = ((s.getV x).toNat + kk.toNat) % 256 := by rw [hsum, BitVec.toNat_add]
  exact ⟨advance_setV_writes_one_register s x kk, t, hadd, hwraps, hkept, hframe⟩

/-- Settles O30: the address is widened to the 16 bits of `I`, which keeps its value. -/
theorem loadIndexTakesTheAddress : Obligations.LoadIndexTakesTheAddress := fun nnn _ =>
  ⟨_, rfl, toNat_zextAddr nnn, rfl⟩

/-- Settles O31: the masked free byte is the one byte written. -/
theorem randomIsTheFreeByteMasked : Obligations.RandomIsTheFreeByteMasked := fun x kk s =>
  advance_setV_writes_one_register s x (s.rnd &&& kk)

end Sys2Proof.Machine
end

section
/-! PROOFS. Register-to-register operations (R180-R188): the copy and the bitwise ones write one register, the others the flag and then the
result; what each flag and each result is as a number. -/

namespace Sys2Proof.Machine

/-! ## The copy and the bitwise operations (R180-R183) -/

/-- Settles O32: each writes one register, and VF only where it is that register. -/
theorem logicalOperationsWriteNoFlag : Obligations.LogicalOperationsWriteNoFlag := fun x y s =>
  ⟨advance_setV_writes_one_register s x (s.getV y), advance_setV_writes_one_register s x (s.getV x ||| s.getV y),
    advance_setV_writes_one_register s x (s.getV x &&& s.getV y), advance_setV_writes_one_register s x (s.getV x ^^^ s.getV y)⟩

/-! ## An instruction that writes the flag and the result -/

/-- What an instruction does that writes the flag, then one register, and moves on: in VF the flag stands unless the result goes there too
(R128, R190, D1). -/
theorem advance_setFlagThenV_writes_flag_and_register (s : State) (flag : Bool) (x : Reg) (b : Byte) :
    ∃ t, advance (s.setFlagThenV flag x b) = .next t ∧ t.getV x = b ∧ (x ≠ 15 → t.getV 15 = flagByte flag) ∧
      (∀ j, j ≠ x → j ≠ 15 → t.getV j = s.getV j) ∧ t = { s with v := t.v, pc := s.pc + 2, result := .ok } := by
  have reads (j : Reg) := getV_setFlagThenV s flag x j b
  refine ⟨_, rfl, (reads x).trans (if_pos rfl), fun hx => ?_, fun j hj hf => ?_, rfl⟩
  · exact (reads 15).trans ((if_neg hx.symm).trans (if_pos rfl))
  · exact (reads j).trans ((if_neg hj).trans (if_neg hf))

/-! ## The sum (R184) -/

theorem flagByte_addCarry (a b : Byte) : flagByte (addCarry a b) = if a.toNat + b.toNat > 255 then 1 else 0 := by
  simp only [flagByte, addCarry, decide_eq_true_eq]

/-- Settles O33: the sum of two bytes wraps at 256, and the carry says that it did. -/
theorem addSetsSumAndCarry : Obligations.AddSetsSumAndCarry := by
  intro x y s
  obtain ⟨t, ht, hsum, hflag, hkept, hframe⟩ := advance_setFlagThenV_writes_flag_and_register s
    (addCarry (s.getV x) (s.getV y)) x (s.getV x + s.getV y)
  exact ⟨t, ht, by rw [hsum, BitVec.toNat_add], fun hx => (hflag hx).trans (flagByte_addCarry _ _), hkept, hframe⟩

/-! ## The differences (R185, R187) -/

theorem flagByte_noBorrow (a b : Byte) : flagByte (noBorrow a b) = if a.toNat ≥ b.toNat then 1 else 0 := by
  simp only [flagByte, noBorrow, decide_eq_true_eq]

/-- The difference of two bytes is that of their values, as an integer modulo 256. -/
theorem toNat_sub_byte (a b : Byte) : ((a - b).toNat : Int) = ((a.toNat : Int) - b.toNat) % 256 := by
  rw [BitVec.toNat_sub]
  omega

/-- Both subtractions are this one, with the operands in either order. -/
theorem advance_difference_writes_noBorrow_and_register (s : State) (x : Reg) (a b : Byte) :
    ∃ t, advance (s.setFlagThenV (noBorrow a b) x (a - b)) = .next t ∧
      ((t.getV x).toNat : Int) = ((a.toNat : Int) - b.toNat) % 256 ∧
      (x ≠ 15 → t.getV 15 = if a.toNat ≥ b.toNat then 1 else 0) ∧
      (∀ j, j ≠ x → j ≠ 15 → t.getV j = s.getV j) ∧ t = { s with v := t.v, pc := s.pc + 2, result := .ok } := by
  obtain ⟨t, ht, hdiff, hflag, hkept, hframe⟩ := advance_setFlagThenV_writes_flag_and_register s (noBorrow a b) x (a - b)
  exact ⟨t, ht, by rw [hdiff, toNat_sub_byte], fun hx => (hflag hx).trans (flagByte_noBorrow a b), hkept, hframe⟩

/-- Settles O34: `8xy5` takes `V[y]` from `V[x]`, and `8xy7` takes `V[x]` from `V[y]`. -/
theorem subtractionsSetDifferenceAndNoBorrow : Obligations.SubtractionsSetDifferenceAndNoBorrow := fun x y s =>
  ⟨advance_difference_writes_noBorrow_and_register s x (s.getV x) (s.getV y),
    advance_difference_writes_noBorrow_and_register s x (s.getV y) (s.getV x)⟩

/-! ## The shifts (R186, R188) -/

theorem toNat_flagByte (b : Bool) : (flagByte b).toNat = b.toNat := by cases b <;> rfl

/-- The bit that a right shift moves out is the remainder by 2. -/
theorem toNat_flagByte_shrOut (a : Byte) : (flagByte (shrOut a)).toNat = a.toNat % 2 := by
  rw [toNat_flagByte, shrOut, BitVec.getLsbD, Nat.toNat_testBit, Nat.pow_zero, Nat.div_one]

/-- The bit that a left shift moves out is the quotient by 128: a byte has no bit above it. -/
theorem toNat_flagByte_shlOut (a : Byte) : (flagByte (shlOut a)).toNat = a.toNat / 128 := by
  rw [toNat_flagByte, shlOut, BitVec.getLsbD, Nat.toNat_testBit]
  omega

theorem toNat_shiftRight_one (a : Byte) : (a >>> 1).toNat = a.toNat / 2 := by
  rw [BitVec.toNat_ushiftRight, Nat.shiftRight_one]

theorem toNat_shiftLeft_one (a : Byte) : (a <<< 1).toNat = a.toNat * 2 % 256 := by
  rw [BitVec.toNat_shiftLeft, Nat.shiftLeft_eq]

/-- Settles O35: the result and the bit shifted out are the quotient and the remainder by 2, or twice the byte modulo 256 and its carry. -/
theorem shiftsMoveOneBitIntoTheFlag : Obligations.ShiftsMoveOneBitIntoTheFlag := by
  intro x y s
  constructor
  · obtain ⟨t, ht, hres, hflag, hkept, hframe⟩ := advance_setFlagThenV_writes_flag_and_register s
      (shrOut (s.getV x)) x (s.getV x >>> 1)
    exact ⟨t, ht, by rw [hres, toNat_shiftRight_one], fun hx => by rw [hflag hx, toNat_flagByte_shrOut], hkept, hframe⟩
  · obtain ⟨t, ht, hres, hflag, hkept, hframe⟩ := advance_setFlagThenV_writes_flag_and_register s
      (shlOut (s.getV x)) x (s.getV x <<< 1)
    exact ⟨t, ht, by rw [hres, toNat_shiftLeft_one], fun hx => by rw [hflag hx, toNat_flagByte_shlOut], hkept, hframe⟩

end Sys2Proof.Machine
end

section
/-! PROOFS. The two framebuffer instructions (R200-R204): the blank screen, a draw pixel by pixel, and the same draw done twice. -/

namespace Sys2Proof.Machine

/-! ## Clearing (R200) -/

theorem getElem_blankFb (r : Fin 32) (c : Fin 64) : blankFb[r][c] = false := by
  simp [blankFb]

/-- Settles O20: the new framebuffer is the blank one. -/
theorem clsClearsEveryPixel : Obligations.ClsClearsEveryPixel := fun _ =>
  ⟨_, rfl, getElem_blankFb, rfl⟩

/-! ## The places of a sprite (R201-R203) -/

/-- Where the set bits of the sprite at `I` land on the framebuffer. -/
def spritePlaces (x y : Reg) (n : Fin 16) (s : State) : List (Fin 32 × Fin 64) :=
  hits (s.getV x).toNat (s.getV y).toNat 0 (s.bytes s.iReg.toNat n.val)

theorem drawRows_eq_plot_spritePlaces (x y : Reg) (n : Fin 16) (s : State) (k : Canvas) :
    drawRows (s.getV x).toNat (s.getV y).toNat 0 (s.bytes s.iReg.toNat n.val) k = plot (spritePlaces x y n s) k :=
  drawRows_eq_plot _ _ _ 0 k

theorem nodup_spritePlaces (x y : Reg) (n : Fin 16) (s : State) : (spritePlaces x y n s).Nodup :=
  nodup_hits _ _ _ 0 (by rw [length_bytes]; omega)

theorem mem_spritePlaces {x y : Reg} {n : Fin 16} {s : State} {r : Fin 32} {c : Fin 64} :
    (r, c) ∈ spritePlaces x y n s ↔ ∃ k j : Nat, k < n.val ∧ j < 8 ∧ (s.byte (s.iReg.toNat + k)).getLsbD (7 - j) = true ∧
      r.val = ((s.getV y).toNat + k) % 32 ∧ c.val = ((s.getV x).toNat + j) % 64 := by
  simp only [spritePlaces, mem_hits, length_bytes, getElem_bytes, spritePixel, Nat.add_zero]
  exact ⟨fun ⟨k, j, hk, h⟩ => ⟨k, j, hk, h⟩, fun ⟨k, j, hk, h⟩ => ⟨k, j, hk, h⟩⟩

/-- No other bit lands on the place of bit `(k, j)`, so the place is drawn on exactly when that bit is set. -/
theorem mem_spritePlaces_of_bit {x y : Reg} {n : Fin 16} {s : State} {r : Fin 32} {c : Fin 64} {k j : Nat} (hk : k < n.val)
    (hj : j < 8) (hr : r.val = ((s.getV y).toNat + k) % 32) (hc : c.val = ((s.getV x).toNat + j) % 64) :
    (r, c) ∈ spritePlaces x y n s ↔ (s.byte (s.iReg.toNat + k)).getLsbD (7 - j) = true := by
  refine mem_spritePlaces.trans ⟨?_, fun hbit => ⟨k, j, hk, hj, hbit, hr, hc⟩⟩
  rintro ⟨k', j', hk', hj', hbit, hr', hc'⟩
  obtain rfl : k' = k := by omega
  obtain rfl : j' = j := by omega
  exact hbit

/-- The places depend on the two coordinates, `I` and memory. -/
theorem spritePlaces_congr {x y : Reg} {n : Fin 16} {s t : State} (hx : t.getV x = s.getV x) (hy : t.getV y = s.getV y)
    (hi : t.iReg = s.iReg) (hc : t.config = s.config) (hm : t.mem = s.mem) : spritePlaces x y n t = spritePlaces x y n s := by
  simp only [spritePlaces, State.bytes, byte_congr hc hm, hx, hy, hi]

/-! ## What a draw does (R201) -/

theorem flagByte_eq_one_iff {b : Bool} : flagByte b = 1 ↔ b = true := by cases b <;> decide

theorem flagByte_eq_one_or_eq_zero (b : Bool) : flagByte b = 1 ∨ flagByte b = 0 := by cases b <;> decide

/-- `t` is `s` after a draw that fits: the places of the sprite flipped, and VF the collision. -/
structure Drawn (x y : Reg) (n : Fin 16) (s t : State) : Prop where
  pixel : ∀ r c, t.pixel r c = (s.pixel r c ^^ decide ((r, c) ∈ spritePlaces x y n s))
  flag : t.getV 15 = flagByte ((spritePlaces x y n s).any fun p => s.pixel p.1 p.2)
  kept : ∀ j, j ≠ 15 → t.getV j = s.getV j
  frame : t = { s with fb := t.fb, v := t.v, pc := s.pc + 2, result := .ok }

/-- A draw that fits flips exactly the places of the sprite, and collides where one of them was set. -/
theorem exec_drw_of_fits (x y : Reg) {n : Fin 16} {s : State} (h : n.val = 0 ∨ s.iReg.toNat + n.val ≤ 4096) :
    ∃ t, exec (.drw x y n) s = .next t ∧ Drawn x y n s t := by
  have hdraw := execDrw_eq_next.2 (.inl ⟨h, _, (drawRows_eq_plot_spritePlaces x y n s ⟨s.fb, false⟩).symm, rfl⟩)
  refine ⟨_, hdraw, ?_, ?_, fun j => getV_setV_ne s _, rfl⟩
  · exact plot_fb _ _ (nodup_spritePlaces x y n s)
  · refine (getV_setV_same s vf _).trans (congrArg flagByte (Bool.eq_iff_iff.2 ?_))
    rw [plot_collision _ _ (nodup_spritePlaces x y n s), List.any_eq_true]
    exact or_iff_right Bool.false_ne_true

theorem Drawn.flag_eq_one_iff {x y : Reg} {n : Fin 16} {s t : State} (h : Drawn x y n s t) :
    t.getV 15 = 1 ↔ ∃ p ∈ spritePlaces x y n s, s.pixel p.1 p.2 = true := by
  rw [h.flag, flagByte_eq_one_iff, List.any_eq_true]

/-- Settles O21: a draw that fits flips the places of the set sprite bits, each place once, and one that does not fit is a block fault. -/
theorem drawXorsTheSpriteAndReportsCollision : Obligations.DrawXorsTheSpriteAndReportsCollision := by
  refine fun x y n s => ⟨fun h => ?_, fun hn hbad => execDrw_eq_next.2 (.inr ⟨⟨hn, by omega⟩, rfl⟩)⟩
  obtain ⟨t, ht, hd⟩ := exec_drw_of_fits x y (n := n) (s := s) (by omega)
  refine ⟨t, ht, fun k j r c hk hj hr hc => ?_, fun r c hout => ?_, ?_, hd.flag_eq_one_iff.trans ⟨?_, ?_⟩, hd.kept, hd.frame⟩
  · simp only [hd.pixel, mem_spritePlaces_of_bit hk hj hr hc, Bool.decide_eq_true]
  · have hnot : (r, c) ∉ spritePlaces x y n s := fun hmem => by
      obtain ⟨k, j, hk, hj, -, hr, hc⟩ := mem_spritePlaces.1 hmem
      exact hout k j hk hj hr hc
    rw [hd.pixel, decide_eq_false hnot, Bool.xor_false]
  · rw [hd.flag]
    exact flagByte_eq_one_or_eq_zero _
  · rintro ⟨⟨r, c⟩, hmem, hset⟩
    obtain ⟨k, j, hk, hj, hbit, hr, hc⟩ := mem_spritePlaces.1 hmem
    exact ⟨k, j, r, c, hk, hj, hr, hc, hbit, hset⟩
  · rintro ⟨k, j, r, c, hk, hj, hr, hc, hbit, hset⟩
    exact ⟨(r, c), mem_spritePlaces.2 ⟨k, j, hk, hj, hbit, hr, hc⟩, hset⟩

/-! ## Drawing twice (test S9 of the source) -/

theorem fb_ext {s t : State} (h : ∀ r c, t.pixel r c = s.pixel r c) : t.fb = s.fb :=
  Vector.ext fun r hr => Vector.ext fun c hc => h ⟨r, hr⟩ ⟨c, hc⟩

/-- A sprite lands somewhere exactly when one of its bits is set. -/
theorem exists_mem_spritePlaces_iff {x y : Reg} {n : Fin 16} {s : State} : (∃ p, p ∈ spritePlaces x y n s) ↔
    ∃ k j : Nat, k < n.val ∧ j < 8 ∧ (s.byte (s.iReg.toNat + k)).getLsbD j = true := by
  constructor
  · rintro ⟨⟨r, c⟩, hmem⟩
    obtain ⟨k, j, hk, hj, hbit, -, -⟩ := mem_spritePlaces.1 hmem
    exact ⟨k, 7 - j, hk, by omega, hbit⟩
  · rintro ⟨k, j, hk, hj, hbit⟩
    have hbit' : (s.byte (s.iReg.toNat + k)).getLsbD (7 - (7 - j)) = true := by rwa [Nat.sub_sub_self (by omega)]
    exact ⟨(wrapRow _, wrapCol _), mem_spritePlaces.2 ⟨k, 7 - j, hk, by omega, hbit', rfl, rfl⟩⟩

/-- Settles O22: with the coordinates kept both draws flip the same places, and on a blank screen the first sets exactly those. -/
theorem drawingTwiceRestoresTheFramebuffer : Obligations.DrawingTwiceRestoresTheFramebuffer := by
  intro x y n s hfits
  obtain ⟨t, ht, hd⟩ := exec_drw_of_fits x y hfits
  refine ⟨t, ht, fun hx hy => ?_⟩
  have hi : t.iReg = s.iReg := by rw [hd.frame]
  have hplaces : spritePlaces x y n t = spritePlaces x y n s :=
    spritePlaces_congr hx hy hi (by rw [hd.frame]) (by rw [hd.frame])
  obtain ⟨u, hu, hd'⟩ := exec_drw_of_fits x y (n := n) (s := t) (by rwa [hi])
  refine ⟨u, hu, fb_ext fun r c => ?_, fun hblank => ⟨?_, ?_⟩⟩
  · rw [hd'.pixel, hd.pixel, hplaces, Bool.xor_assoc, Bool.xor_self, Bool.xor_false]
  · have hnone : ((spritePlaces x y n s).any fun p => s.pixel p.1 p.2) = false :=
      List.any_eq_false.2 fun p _ => by rw [hblank]; exact Bool.false_ne_true
    rw [hd.flag, hnone]
    rfl
  · have hset : ∀ p, t.pixel p.1 p.2 = true ↔ p ∈ spritePlaces x y n s := fun p => by
      rw [hd.pixel, hblank, Bool.false_xor, decide_eq_true_iff]
    simp only [hd'.flag_eq_one_iff, hplaces, hset, and_self]
    exact exists_mem_spritePlaces_iff

end Sys2Proof.Machine
end

section
/-! PROOFS. The keypad (R210-R216): the skips on a key, the dispatch of the key wait, the two key events, and the exits of the wait. -/

namespace Sys2Proof.Machine

/-! ## What each event does to a key wait (R216) -/

theorem loadRom_mode {rom : List Byte} {s t : State} (h : loadRom rom s = .next t) : t.mode = s.mode := by
  cases hrom : s.romLoadable with
  | false => cases (loadRom_outOfOrder hrom).symm.trans h
  | true =>
    by_cases hlen : rom.length ≤ 3584
    · cases (loadRom_fits hrom hlen).symm.trans h
      rfl
    · cases (loadRom_tooLarge hrom (Nat.lt_of_not_le hlen)).symm.trans h
      rfl

/-- An event leaves a key wait pending, but for a reset and for a key that was up going down (R213, R350). -/
theorem applyEvent_awaitingKey {e : Event} {s t : State} {r : Reg} (hm : s.mode = .awaitingKey r) (h : applyEvent e s = .next t) :
    t.mode = .awaitingKey r ∨ t.mode = .running ∧ (e = .reset ∨ ∃ k : Key, e = .keyDown k ∧ s.keys[k] = false) := by
  cases e with
  | reset =>
    cases h
    exact .inr ⟨resetEvent_mode s, .inl rfl⟩
  | loadRom rom => exact .inl ((loadRom_mode h).trans hm)
  | step b =>
    cases (stepEvent_awaitingKey b hm).symm.trans h
    exact .inl hm
  | keyDown k =>
    cases h
    cases hk : s.keys[k] with
    | true =>
      rw [keyDown_held hk]
      exact .inl hm
    | false =>
      rw [keyDown_completes hk hm]
      exact .inr ⟨rfl, .inr ⟨k, rfl, hk⟩⟩
  | tick | keyUp k =>
    cases h
    exact .inl hm

/-- Settles O55: the idle step is a `step` event, which keeps the wait, and of the queued events only the two exits end it. -/
theorem keyWaitIsLeftByKeyDownOrResetOnly : Obligations.KeyWaitIsLeftByKeyDownOrResetOnly := by
  intro s t r hm h hleft
  cases hq : s.inputs with
  | nil =>
    rw [step_idle hq, stepEvent_awaitingKey (s := { s with draws := s.draws + 1 }) _ hm] at h
    cases h
    exact absurd hm hleft
  | cons e rest =>
    rw [step_queued hq] at h
    obtain ⟨hrun, hexit⟩ := (applyEvent_awaitingKey (s := { s with inputs := rest }) hm h).resolve_left hleft
    exact ⟨hrun, hexit.imp (congrArg some) fun ⟨k, he, hk⟩ => ⟨k, congrArg some he, hk⟩⟩

/-! ## The two key events (R213, R214) -/

/-- The write of one key's state keeps the other keys' (R32). -/
theorem getElem_setKey_ne (keys : Vector Bool 16) {k j : Key} (b : Bool) (h : j ≠ k) : (keys.set k.val b k.isLt)[j] = keys[j] :=
  Vector.getElem_set_ne k.isLt j.isLt fun e => h (Fin.ext e.symm)

/-- Settles O15: a held key changes nothing, and a transition completes a pending wait or sets the key only. -/
theorem keyDownSetsTheKeyAndCompletesTheWait : Obligations.KeyDownSetsTheKeyAndCompletesTheWait := by
  intro s k rest hq
  refine ⟨fun hk => ?_, fun hk => ?_⟩
  · rw [step_queued hq]
    exact congrArg Host.Outcome.next (keyDown_held (s := { s with inputs := rest }) hk)
  · by_cases hm : ∃ r, s.mode = .awaitingKey r
    · obtain ⟨r, hm⟩ := hm
      refine ⟨_, step_keyDown_completes hm hk hq, Vector.getElem_set_self k.isLt, fun j hj => getElem_setKey_ne _ _ hj,
        fun r' hr' => ?_, fun hno => absurd hm (hno r)⟩
      cases hm.symm.trans hr'
      exact ⟨(congrArg BitVec.toNat (getV_setV_same _ r _)).trans (toNat_keyByte k), fun j hj => getV_setV_ne _ _ hj, rfl⟩
    · have hno := not_exists.1 hm
      refine ⟨_, (step_queued hq).trans (congrArg Host.Outcome.next (keyDown_sets (s := { s with inputs := rest }) hk hno)),
        Vector.getElem_set_self k.isLt, fun j hj => getElem_setKey_ne _ _ hj, fun r hr => absurd hr (hno r), fun _ => rfl⟩

/-- Settles O16: the event writes the one key's state, in every mode. -/
theorem keyUpClearsTheKey : Obligations.KeyUpClearsTheKey := fun _ k _ hq =>
  ⟨_, step_queued hq, Vector.getElem_set_self k.isLt, fun _ hj => getElem_setKey_ne _ _ hj, rfl⟩

/-! ## The instructions (R210-R212) -/

/-- A register selects the key that its low four bits number (R215). -/
theorem lowNibble_eq {b : Byte} {k : Key} (h : k.val = b.toNat % 16) : lowNibble b = k := Fin.ext h.symm

/-- A skip on the complement of a condition swaps the two increments of `pc` (R164). -/
theorem skipIf_not (b : Bool) (s : State) :
    skipIf (!b) s = .next { s with pc := if b = true then s.pc + 2 else s.pc + 4, result := .ok } := by
  cases b <;> rfl

/-- Settles O28: the register selects the key `k`, and the skip if it is up is the complement of the skip if it is down. -/
theorem keySkipsTestTheLowNibblesKey : Obligations.KeySkipsTestTheLowNibblesKey := by
  intro x k s h
  obtain rfl := lowNibble_eq h
  exact ⟨rfl, skipIf_not s.keys[lowNibble (s.getV x)] s⟩

/-- Settles O38: the dispatch is one update of the mode and the result. -/
theorem keyWaitDispatchLeavesPc : Obligations.KeyWaitDispatchLeavesPc := fun _ _ => rfl

end Sys2Proof.Machine
end

section
/-! PROOFS. The timers (R220-R225): one countdown and any number of them, and the three instructions that read and set the timers. -/

namespace Sys2Proof.Machine

/-! ## The countdown (R223, R225) -/

/-- A timer's countdown is the subtraction of naturals, which is floored at 0 as R223 asks. -/
@[simp] theorem toNat_countDown (b : Byte) : (countDown b).toNat = b.toNat - 1 := by
  by_cases h : b = 0
  · subst h; rfl
  · have hpos : (1 : Byte) ≤ b := BitVec.le_def.2 (Nat.pos_of_ne_zero fun h0 => h (BitVec.eq_of_toNat_eq h0))
    rw [countDown, if_neg h, BitVec.toNat_sub_of_le hpos]
    rfl

/-- A queued `tick` is the countdown of both timers, in whatever mode the machine is (R223, D17). -/
theorem step_tick {s : State} {rest : List Event} (hq : s.inputs = .tick :: rest) :
    step s = .next (tick { s with inputs := rest }) := step_queued hq

/-- Settles O13: each timer is counted down once. -/
theorem tickCountsBothTimersDown : Obligations.TickCountsBothTimersDown := fun _ _ hq =>
  ⟨_, step_tick hq, toNat_countDown _, toNat_countDown _, rfl⟩

/-- Settles O14, by induction on the ticks: the first takes 1 from each timer, the others take theirs from what it left. -/
theorem timersAfterManyTicks : Obligations.TimersAfterManyTicks := by
  intro j s rest hq
  induction j generalizing s with
  | zero =>
    cases hq
    exact ⟨s, run_zero s, rfl, rfl, rfl⟩
  | succ j ih =>
    obtain ⟨u, hstep, hdt, hst, hframe⟩ := tickCountsBothTimersDown s (List.replicate j Event.tick ++ rest) hq
    obtain ⟨t, hrun, hdt', hst', hframe'⟩ := ih u (congrArg State.inputs hframe)
    refine ⟨t, (run_succ j hstep).trans hrun, ?_, ?_, ?_⟩
    · rw [hdt', hdt, Nat.sub_sub, Nat.add_comm]
    · rw [hst', hst, Nat.sub_sub, Nat.add_comm]
    · rw [hframe] at hframe'
      exact hframe'

/-! ## The instructions (R220-R222) and the tone (R224) -/

@[simp] theorem toneActive_iff {s : State} : s.toneActive = true ↔ s.st ≠ 0 := bne_iff_ne

/-- Settles O37: `Fx07` writes one register, `Fx15` and `Fx18` one timer, and the tone follows the sound timer that was set. -/
theorem timerInstructionsMoveTheTimers : Obligations.TimerInstructionsMoveTheTimers := fun x s =>
  ⟨advance_setV_writes_one_register s x s.dt, rfl, _, rfl, rfl, toneActive_iff⟩

end Sys2Proof.Machine
end

section
/-! PROOFS. Index and memory (R230-R234): what `I` is after the two instructions that compute it, and the two stores and the load with the
fault of a block that does not fit. -/

namespace Sys2Proof.Machine

/-! ## The address register (R230, R231) -/

theorem flagByte_indexOverflow (i : Word) (b : Byte) :
    flagByte (indexOverflow i b) = if i.toNat + b.toNat > 0x0FFF then 1 else 0 := by
  simp only [flagByte, indexOverflow, decide_eq_true_eq]

theorem toNat_add_zextByte (i : Word) (b : Byte) : (i + zextByte b).toNat = (i.toNat + b.toNat) % 65536 := by
  rw [BitVec.toNat_add, toNat_zextByte]

/-- Settles O40: `I` is the same sum under either setting, and VF is the one register that FX1E_VF_OVERFLOW adds to the writes. -/
theorem addToIndexWrapsAndFlagsByParameter : Obligations.AddToIndexWrapsAndFlagsByParameter := by
  intro x s
  cases hc : s.config.fx1eVfOverflow with
  | true =>
    refine ⟨_, execAddI_eq_next.2 (.inl ⟨hc, rfl⟩), toNat_add_zextByte _ _, nofun, fun _ => ?_, fun j => getV_setV_ne s _, rfl⟩
    exact (getV_setV_same s vf _).trans (flagByte_indexOverflow _ _)
  | false =>
    exact ⟨_, execAddI_eq_next.2 (.inr ⟨hc, rfl⟩), toNat_add_zextByte _ _, fun _ => rfl, nofun, fun _ _ => rfl, rfl⟩

/-- Within FONT_BASE's constraint the address of a digit's sprite does not wrap (R6, R78). -/
theorem toNat_digitAddress {c : Config} (hc : c.WellFormed) (d : Fin 16) :
    (digitAddress c.fontBase d).toNat = c.fontBase.toNat + 5 * d.val := by
  simp only [digitAddress, BitVec.toNat_add, BitVec.toNat_ofNat]
  omega

/-- Settles O41: the digit is the low nibble of the register. -/
theorem digitAddressIsFiveBytesPerDigit : Obligations.DigitAddressIsFiveBytesPerDigit := fun _ _ hfont =>
  ⟨_, rfl, toNat_digitAddress hfont _, rfl⟩

/-! ## The stores and the load (R232-R234) -/

/-- Settles O42: the three stored bytes are the digits, and a block of three fits exactly where `I` is at most 4093. -/
theorem decimalDigitsAreStoredAtIndex : Obligations.DecimalDigitsAreStoredAtIndex := by
  refine fun x s => ⟨fun hI => ?_, fun hI => execLdB_eq_next.2 (.inr ⟨by omega, rfl⟩)⟩
  refine ⟨_, execLdB_eq_next.2 (.inl ⟨by omega, rfl⟩), ?_, ?_, ?_, fun a ha => byte_storeBytes_outside s _ _ ha, rfl⟩
  · exact byte_storeBytes_bcdDigits s _ _ 0 (by decide)
  · exact byte_storeBytes_bcdDigits s _ _ 1 (by decide)
  · exact byte_storeBytes_bcdDigits s _ _ 2 (by decide)

/-- Settles O43: the block is the registers up to `x`, one byte each. -/
theorem blockStoreCopiesRegistersToMemory : Obligations.BlockStoreCopiesRegistersToMemory := by
  refine fun x s => ⟨fun hI => ?_, fun hI => execLdMemVx_eq_next.2 (.inr ⟨hI, rfl⟩)⟩
  refine ⟨_, execLdMemVx_eq_next.2 (.inl ⟨hI, rfl⟩), fun j => byte_storeBytes_firstRegs s _, fun a ha => ?_, rfl⟩
  exact byte_storeBytes_outside s _ _ (by rwa [length_firstRegs])

/-- Settles O44: a register up to `x` is loaded, one above it kept. -/
theorem blockLoadCopiesMemoryToRegisters : Obligations.BlockLoadCopiesMemoryToRegisters := by
  refine fun x s => ⟨fun hI => ?_, fun hI => execLdVxMem_eq_next.2 (.inr ⟨hI, rfl⟩)⟩
  have loaded := getElem_loadRegs s s.iReg.toNat x
  refine ⟨_, execLdVxMem_eq_next.2 (.inl ⟨hI, rfl⟩), fun j hj => ?_, fun j hj => ?_, rfl⟩
  · exact (loaded j).trans (if_pos hj)
  · exact (loaded j).trans (if_neg (Fin.not_le.2 hj))

/-- Settles O45: the load reads from the same `I` the bytes that the store put there. -/
theorem blockStoreThenLoadRestoresRegisters : Obligations.BlockStoreThenLoadRestoresRegisters := by
  intro x s u hI hkept
  obtain ⟨t, hstore, hstored, -, hframe⟩ := (blockStoreCopiesRegistersToMemory x s).1 hI
  obtain ⟨hut, hblock⟩ := hkept t hstore
  have hi : u.iReg = s.iReg := by rw [hut, hframe]
  obtain ⟨w, hload, hloaded, -, -⟩ := (blockLoadCopiesMemoryToRegisters x u).1 (by rwa [hi])
  refine ⟨w, hload, fun j hj => ?_⟩
  calc w.getV j = u.byte (s.iReg.toNat + j.val) := by rw [hloaded j hj, hi]
    _ = t.byte (s.iReg.toNat + j.val) := hblock _ (Nat.le_add_right _ _) (Nat.add_le_add_left hj _)
    _ = s.getV j := hstored j hj

end Sys2Proof.Machine
end

section
/-! PROOFS. Faults (R300-R310): which fault an instruction raises, what the step that halts the machine changes, and that a halted machine
is left by reset only. -/

namespace Sys2Proof.Machine

/-! ## What an instruction raises (R307) -/

/-- The faults that an instruction can raise, each with the instructions and the condition that raise it (R302-R304). -/
def Raises (i : Instr) (s : State) (f : FaultRecord) : Prop :=
  (f = .stackOverflow s.pc (encode i) ∧ (∃ nnn, i = .call nnn) ∧ s.sp = 16) ∨
  (f = .stackUnderflow s.pc (encode i) ∧ i = .ret ∧ s.sp = 0) ∨
  (f = .memoryFault s.pc (some (encode i)) (max s.iReg.toNat 4096) ∧
    ((∃ x y n, i = .drw x y n) ∨ (∃ x, i = .ldB x ∨ i = .ldMemVx x ∨ i = .ldVxMem x)))

/-- Every fault that an instruction raises names the instruction's own address. -/
theorem Raises.pc_eq {i : Instr} {s : State} {f : FaultRecord} (h : Raises i s f) : f.pc = s.pc := by
  rcases h with ⟨rfl, _⟩ | ⟨rfl, _⟩ | ⟨rfl, _⟩ <;> rfl

/-- An instruction that halts a running machine raises one of its own faults, and that is all it does. -/
theorem exec_halts {i : Instr} {s t : State} {f : FaultRecord} (hm : s.mode = .running) (h : exec i s = .next t)
    (ht : t.mode = .halted f) : Raises i s f ∧ t = { s with mode := .halted f, result := .fault f } := by
  rcases exec_cases i s with ⟨u, hu, he⟩ | ⟨x, _, hx⟩ | ⟨g, hg, hraises⟩
  · cases hu.symm.trans h
    rw [he.mode, hm] at ht
    cases ht
  · cases hx.symm.trans h
    cases ht
  · cases raiseFault_eq_next.1 (hg.symm.trans h)
    cases ht
    exact ⟨hraises, rfl⟩

/-- Settles O53, from what an instruction does that halts the machine. -/
theorem eachInstructionRaisesOneKindOfFault : Obligations.EachInstructionRaisesOneKindOfFault := fun _ _ _ _ hm h ht =>
  (exec_halts hm h ht).1

/-! ## The step that halts (R301, R308, R309) -/

theorem unmatchedWord_halts {w : Word} {s t : State} {f : FaultRecord} (hm : s.mode = .running) (h : unmatchedWord w s = .next t)
    (ht : t.mode = .halted f) : f.pc = s.pc ∧ t = { s with mode := .halted f, result := .fault f } := by
  rcases unmatchedWord_eq_next.1 h with ⟨_, rfl⟩ | ⟨_, rfl⟩
  · cases hm.symm.trans ht
  · cases ht
    exact ⟨rfl, rfl⟩

/-- Fetch, decode and execute halt by a fetch fault, by a strict unmatched word or by an instruction's own fault; each changes the mode and
the result, and the record has the address of the word. -/
theorem fetchAndRun_halts {s t : State} {f : FaultRecord} (hm : s.mode = .running) (h : fetchAndRun s = .next t)
    (ht : t.mode = .halted f) : f.pc = s.pc ∧ t = { s with mode := .halted f, result := .fault f, trace := t.trace } := by
  rcases fetchAndRun_cases s with ⟨a, _, e⟩ | ⟨w, g, _, _, e⟩ | ⟨w, i, _, _, e⟩ <;> rw [e] at h
  · cases raiseFault_eq_next.1 h
    cases ht
    exact ⟨rfl, rfl⟩
  · obtain ⟨hpc, hframe⟩ := unmatchedWord_halts (s := s.traced w unmatchedName) hm h ht
    refine ⟨hpc, ?_⟩
    rw [hframe]
    rfl
  · obtain ⟨hraises, hframe⟩ := exec_halts (s := s.traced w (mnemonicOf i)) hm h ht
    refine ⟨hraises.pc_eq, ?_⟩
    rw [hframe]
    rfl

theorem stepEvent_halts {b : Byte} {s t : State} {f : FaultRecord} (hm : s.mode = .running) (h : stepEvent b s = .next t)
    (ht : t.mode = .halted f) :
    f.pc = s.pc ∧ t = { s with mode := .halted f, result := .fault f, trace := t.trace, romLoadable := false, rnd := b } :=
  fetchAndRun_halts (s := s.beginStep b) hm ((stepEvent_running b hm).symm.trans h) ht

/-- Of the events only a `step` halts a running machine. -/
theorem applyEvent_halts {e : Event} {s t : State} {f : FaultRecord} (hm : s.mode = .running) (h : applyEvent e s = .next t)
    (ht : t.mode = .halted f) : ∃ b, e = .step b := by
  cases e with
  | step b => exact ⟨b, rfl⟩
  | loadRom rom => cases ((loadRom_mode h).trans hm).symm.trans ht
  | reset =>
    cases h
    cases ht
  | tick | keyUp k =>
    cases h
    cases hm.symm.trans ht
  | keyDown k =>
    cases h
    cases hk : s.keys[k] with
    | true =>
      rw [keyDown_held hk] at ht
      cases hm.symm.trans ht
    | false =>
      rw [keyDown_sets hk (by rw [hm]; nofun)] at ht
      cases hm.symm.trans ht

/-- Settles O52: the step that halts is a `step` event, queued or with nothing queued, and that changes the mode and the outputs only. -/
theorem faultsArePrecise : Obligations.FaultsArePrecise := by
  intro s t f hm h ht
  cases hq : s.inputs with
  | nil =>
    rw [step_idle hq] at h
    obtain ⟨hpc, hframe⟩ := stepEvent_halts (s := { s with draws := s.draws + 1 }) hm h ht
    refine ⟨hpc, ?_⟩
    rw [hframe]
    simp only [hq, List.tail_nil]
  | cons e rest =>
    rw [step_queued hq] at h
    obtain ⟨b, rfl⟩ := applyEvent_halts (s := { s with inputs := rest }) hm h ht
    obtain ⟨hpc, hframe⟩ := stepEvent_halts (s := { s with inputs := rest }) hm h ht
    refine ⟨hpc, ?_⟩
    rw [hframe]
    rfl

/-- Settles O9: the step is the queued `step` event on an unmatched word, which is skipped or halts the machine. -/
theorem unmatchedWordIsReported : Obligations.UnmatchedWordIsReported := by
  intro s w g b rest hm hq hw hd
  rw [(step_queued hq).trans (stepEvent_unmatched (s := { s with inputs := rest }) b hm hw hd)]
  cases hc : s.config.strictOpcodes with
  | false => exact ⟨_, unmatchedWord_eq_next.2 (.inl ⟨hc, rfl⟩), fun _ => rfl, nofun⟩
  | true => exact ⟨_, unmatchedWord_eq_next.2 (.inr ⟨hc, rfl⟩), nofun, fun _ => rfl⟩

/-! ## The machine while halted (R310) -/

/-- `t` is `s` but for the timers, the keys, the inputs and outputs, and, where a ROM could still be loaded, memory: what the events but
reset can change in a halted machine. -/
structure KeptWhileHalted (s t : State) : Prop where
  frame : t = { s with dt := t.dt, st := t.st, keys := t.keys, mem := t.mem, result := t.result, trace := t.trace,
                       romLoadable := t.romLoadable, rnd := t.rnd, draws := t.draws, inputs := t.inputs }
  mem : s.romLoadable = false → t.mem = s.mem

theorem stepEvent_keptWhileHalted {b : Byte} {s t : State} {f : FaultRecord} (hm : s.mode = .halted f)
    (h : stepEvent b s = .next t) : KeptWhileHalted s t := by
  cases (stepEvent_halted b hm).symm.trans h
  exact ⟨rfl, fun _ => rfl⟩

theorem loadRom_keptWhileHalted {rom : List Byte} {s t : State} (h : loadRom rom s = .next t) : KeptWhileHalted s t := by
  cases hrom : s.romLoadable with
  | false => cases (loadRom_outOfOrder hrom).symm.trans h
  | true =>
    by_cases hlen : rom.length ≤ 3584
    · cases (loadRom_fits hrom hlen).symm.trans h
      exact ⟨rfl, fun hno => nomatch hrom.symm.trans hno⟩
    · cases (loadRom_tooLarge hrom (Nat.lt_of_not_le hlen)).symm.trans h
      exact ⟨rfl, fun _ => rfl⟩

theorem applyEvent_keptWhileHalted {e : Event} {s t : State} {f : FaultRecord} (hm : s.mode = .halted f) (he : e ≠ .reset)
    (h : applyEvent e s = .next t) : KeptWhileHalted s t := by
  cases e with
  | reset => exact absurd rfl he
  | loadRom rom => exact loadRom_keptWhileHalted h
  | step b => exact stepEvent_keptWhileHalted hm h
  | tick | keyUp k =>
    cases h
    exact ⟨rfl, fun _ => rfl⟩
  | keyDown k =>
    cases h
    cases hk : s.keys[k] with
    | true =>
      rw [keyDown_held hk]
      exact ⟨rfl, fun _ => rfl⟩
    | false =>
      rw [keyDown_sets hk (by rw [hm]; nofun)]
      exact ⟨rfl, fun _ => rfl⟩

/-- What a step that is no reset leaves as it was in a halted machine, whether an event is queued or not. -/
theorem step_keptWhileHalted {s t : State} {f : FaultRecord} (hm : s.mode = .halted f) (h : step s = .next t)
    (hreset : s.inputs.head? ≠ some .reset) : KeptWhileHalted s t := by
  cases hq : s.inputs with
  | nil =>
    rw [step_idle hq] at h
    obtain ⟨hframe, hmem⟩ := stepEvent_keptWhileHalted (s := { s with draws := s.draws + 1 }) hm h
    exact ⟨hframe, hmem⟩
  | cons e rest =>
    have he : e ≠ .reset := fun e' => hreset (by rw [hq, e']; rfl)
    rw [step_queued hq] at h
    obtain ⟨hframe, hmem⟩ := applyEvent_keptWhileHalted (s := { s with inputs := rest }) hm he h
    exact ⟨hframe, hmem⟩

/-- Settles O54: none of the pieces it names is among those that an event but reset can change. -/
theorem haltedIsLeftByResetOnly : Obligations.HaltedIsLeftByResetOnly := by
  intro s t f hm h hreset
  obtain ⟨hframe, hmem⟩ := step_keptWhileHalted hm h hreset
  rw [hframe]
  exact ⟨hm, rfl, rfl, rfl, rfl, rfl, rfl, hmem⟩

end Sys2Proof.Machine
end

section
/-! PROOFS. The reset event (R350) and the completed state (R358). -/

namespace Sys2Proof.Machine

/-- Settles O18: the block's part of the new state is that of the reset state under the same parameters. -/
theorem resetEventRestoresResetState : Obligations.ResetEventRestoresResetState := fun s _ hq =>
  ⟨_, step_queued hq, rfl, resetValues.2 s.config (State.resetWith s.config) rfl⟩

/-- Completion reads the mode, `pc`, the parameters and memory. -/
theorem State.Completed.of_agree {s t : State} (h : s.Completed) (hmode : t.mode = s.mode) (hpc : t.pc = s.pc)
    (hconfig : t.config = s.config) (hmem : t.mem = s.mem) : t.Completed := by
  obtain ⟨hm, nnn, hfetch, htarget⟩ := h
  exact ⟨hmode.trans hm, nnn, (fetch_congr hpc hconfig hmem).trans hfetch, hpc.trans htarget⟩

/-- A `step` event in the completed state jumps to where `pc` is already: it changes the inputs and outputs of a step only. -/
theorem stepEvent_completed {s : State} (h : s.Completed) (b : Byte) :
    ∃ tr, stepEvent b s = .next { s with result := .ok, trace := tr, romLoadable := false, rnd := b } := by
  obtain ⟨hm, nnn, hfetch, htarget⟩ := h
  refine ⟨some ⟨encode (.jp nnn), mnemonicOf (.jp nnn)⟩, (stepEvent_instr b hm hfetch (decode_encode _)).trans ?_⟩
  rw [htarget]
  rfl

/-- Settles O57: the idle and the queued step are both a `step` event, which leaves what completion reads. -/
theorem selfJumpIsAFixedPoint : Obligations.SelfJumpIsAFixedPoint := by
  refine fun s hs => ⟨fun b rest hq => ?_, fun hq => ?_⟩
  · obtain ⟨tr, ht⟩ := stepEvent_completed (s := { s with inputs := rest }) (hs.of_agree rfl rfl rfl rfl) b
    exact ⟨_, (step_queued hq).trans ht, hs.of_agree rfl rfl rfl rfl, rfl⟩
  · obtain ⟨tr, ht⟩ := stepEvent_completed (s := { s with draws := s.draws + 1 }) (hs.of_agree rfl rfl rfl rfl)
      (Config.freeByte s.draws)
    exact ⟨_, (step_idle hq).trans ht, hs.of_agree rfl rfl rfl rfl, rfl⟩

end Sys2Proof.Machine
end

section
/-! PROOFS. VF as an operand (R190, D1): the cells of the table are what the flag-writing instructions do for any two
registers, read at VF. -/

namespace Sys2Proof.Machine

section

variable {i : Instr} {s : State} {Value Flag Rest : State → Prop} {DestNotVf : Prop}

/-- Where VF is the destination, the cell says what it holds afterwards (R190). -/
theorem exec_value (h : ∃ t, exec i s = .next t ∧ Value t ∧ (DestNotVf → Flag t) ∧ Rest t) :
    ∃ t, exec i s = .next t ∧ Value t :=
  h.imp fun _ ⟨ht, hvalue, _⟩ => ⟨ht, hvalue⟩

/-- Where VF is the other operand, the cell says what the destination and the flag hold afterwards (R190). -/
theorem exec_value_and_flag (hx : DestNotVf) (h : ∃ t, exec i s = .next t ∧ Value t ∧ (DestNotVf → Flag t) ∧ Rest t) :
    ∃ t, exec i s = .next t ∧ Value t ∧ Flag t :=
  h.imp fun _ ⟨ht, hvalue, hflag, _⟩ => ⟨ht, hvalue, hflag hx⟩

end

/-- The difference of a byte and itself is 0. -/
theorem eq_zero_of_toNat_eq_sub_self {b : Byte} {f : Nat} (h : (b.toNat : Int) = ((f : Int) - f) % 256) : b = 0 :=
  BitVec.eq_of_toNat_eq (by simpa using h)

/-- Settles O36, cell by cell: each is the instruction's own statement with VF for one operand or for both. -/
theorem flagRegisterAsOperand : Obligations.FlagRegisterAsOperand := by
  rintro z s _ _ rfl rfl
  have add (x y : Reg) := addSetsSumAndCarry x y s
  have sub (x y : Reg) := (subtractionsSetDifferenceAndNoBorrow x y s).1
  have subn (x y : Reg) := (subtractionsSetDifferenceAndNoBorrow x y s).2
  have shr (x y : Reg) := (shiftsMoveOneBitIntoTheFlag x y s).1
  have shl (x y : Reg) := (shiftsMoveOneBitIntoTheFlag x y s).2
  refine ⟨fun hz => ⟨exec_value (add 15 z), exec_value (sub 15 z), exec_value (shr 15 z), exec_value (subn 15 z),
      exec_value (shl 15 z), exec_value_and_flag hz (add z 15), exec_value_and_flag hz (sub z 15),
      exec_value_and_flag hz (shr z 15), exec_value_and_flag hz (subn z 15), exec_value_and_flag hz (shl z 15)⟩,
    ?_, ?_, exec_value (shr 15 15), ?_, exec_value (shl 15 15)⟩
  · rw [Nat.two_mul]
    exact exec_value (add 15 15)
  · exact (exec_value (sub 15 15)).imp fun _ => And.imp_right eq_zero_of_toNat_eq_sub_self
  · exact (exec_value (subn 15 15)).imp fun _ => And.imp_right eq_zero_of_toNat_eq_sub_self

end Sys2Proof.Machine
end
